-- ==== Sys2Proof/Word.lean ====
section
/-! DEFINITION. The word types of the CKS16 framer (R11, R12): bytes, the 16-bit checksum
width and the 32-bit host word. All values are unsigned (R12). -/

namespace Sys2Proof

/-- A byte: a frame-buffer byte, a parameter code, a width, LEN, CURSOR (R11). -/
abbrev Byte := BitVec 8

/-- The 16-bit width of ACC, FAN_SPEED and FW_YEAR (R11). -/
abbrev Half := BitVec 16

/-- A host register and a command word: 32 bits (R11). -/
abbrev Word := BitVec 32

end Sys2Proof
end

