-- ==== Sys2Proof/Syntax.lean ====
section
/-! DEFINITION. The 13 commands of the opcode map (R60), one constructor per row of
spec/opcode_table.json. -/

namespace Sys2Proof

/-- A command a host writes to CMD. `a` is operand A (an FBUF address, a length or a parameter
code) and `b` is operand B (a data byte), both unsigned 8-bit fields (R58, R59). -/
inductive Instr where
  | nop
  | clr
  | wrb (a b : Byte)
  | rdb (a : Byte)
  | setlen (a : Byte)
  | push (b : Byte)
  | ckclr
  | ckadd (b : Byte)
  | cksum
  | verify
  | sealOp
  | lookup (a : Byte)
  | decode
  deriving DecidableEq, Repr

end Sys2Proof
end

