-- ==== Sys2Proof/WellFormed.lean ====
section
/-! DEFINITION. Well-formed command words and commands: the mask and match column of R60 and the
illegal encodings of R61, written from the table's masks and independently of the decoder. -/

namespace Sys2Proof

/-- One row of the opcode map: a word is the row's when its bits under the mask are the match
(R60). -/
structure OpcodeRow where
  mnemonic : String
  matchBits : Word
  mask : Word
  deriving DecidableEq, Repr

/-- The 13 rows of R60: mask 0xFFFFFFFF with no operand, 0xFFFF00FF with A, 0xFFFFFF00 with B,
0xFFFF0000 with both; match = OP << 24. -/
def opcodeTable : List OpcodeRow :=
  [⟨"NOP", 0x00000000#32, 0xFFFFFFFF#32⟩,
   ⟨"CLR", 0x01000000#32, 0xFFFFFFFF#32⟩,
   ⟨"WRB", 0x02000000#32, 0xFFFF0000#32⟩,
   ⟨"RDB", 0x03000000#32, 0xFFFF00FF#32⟩,
   ⟨"SETLEN", 0x04000000#32, 0xFFFF00FF#32⟩,
   ⟨"PUSH", 0x05000000#32, 0xFFFFFF00#32⟩,
   ⟨"CKCLR", 0x06000000#32, 0xFFFFFFFF#32⟩,
   ⟨"CKADD", 0x07000000#32, 0xFFFFFF00#32⟩,
   ⟨"CKSUM", 0x08000000#32, 0xFFFFFFFF#32⟩,
   ⟨"VERIFY", 0x09000000#32, 0xFFFFFFFF#32⟩,
   ⟨"SEAL", 0x0A000000#32, 0xFFFFFFFF#32⟩,
   ⟨"LOOKUP", 0x0B000000#32, 0xFFFF00FF#32⟩,
   ⟨"DECODE", 0x0C000000#32, 0xFFFFFFFF#32⟩]

/-- The word has the row's fixed bits. -/
def OpcodeRow.fits (r : OpcodeRow) (w : Word) : Bool := w &&& r.mask == r.matchBits

/-- A legal command word: some row fits it. Every other word is an illegal encoding (R61). -/
def legalWord (w : Word) : Bool := opcodeTable.any fun r => r.fits w

/-- The row a command stands in. -/
def Instr.row : Instr → OpcodeRow
  | .nop => ⟨"NOP", 0x00000000#32, 0xFFFFFFFF#32⟩
  | .clr => ⟨"CLR", 0x01000000#32, 0xFFFFFFFF#32⟩
  | .wrb _ _ => ⟨"WRB", 0x02000000#32, 0xFFFF0000#32⟩
  | .rdb _ => ⟨"RDB", 0x03000000#32, 0xFFFF00FF#32⟩
  | .setlen _ => ⟨"SETLEN", 0x04000000#32, 0xFFFF00FF#32⟩
  | .push _ => ⟨"PUSH", 0x05000000#32, 0xFFFFFF00#32⟩
  | .ckclr => ⟨"CKCLR", 0x06000000#32, 0xFFFFFFFF#32⟩
  | .ckadd _ => ⟨"CKADD", 0x07000000#32, 0xFFFFFF00#32⟩
  | .cksum => ⟨"CKSUM", 0x08000000#32, 0xFFFFFFFF#32⟩
  | .verify => ⟨"VERIFY", 0x09000000#32, 0xFFFFFFFF#32⟩
  | .sealOp => ⟨"SEAL", 0x0A000000#32, 0xFFFFFFFF#32⟩
  | .lookup _ => ⟨"LOOKUP", 0x0B000000#32, 0xFFFF00FF#32⟩
  | .decode => ⟨"DECODE", 0x0C000000#32, 0xFFFFFFFF#32⟩

/-- A command's well-formedness. Every value of an 8-bit operand is a legal encoding (R59, R61):
an address or a length past 200 is a command error when the command runs (R98 to R100), never an
illegal encoding. So nothing is left to check beside the operands' type and the table's rows. -/
def Instr.wf (i : Instr) : Bool := opcodeTable.contains i.row

end Sys2Proof
end

