-- ==== Sys2Proof/Decode.lean ====
section
/-! DEFINITION. The command decoder (R58, R59, R61, R62), total on every 32-bit word and rejecting
by name, and after it the encoder, from the same opcode map (R60). -/

namespace Sys2Proof

/-- Why a word is an illegal encoding: the three cases (a), (b), (c) of R61. -/
inductive DecodeError where
  /-- OP in 0x0D..0xFF. -/
  | illegalOpcode
  /-- RSV is not 0. -/
  | reservedNonzero
  /-- An operand field the command does not use is not 0. -/
  | unusedOperandNonzero
  deriving DecidableEq, Repr

/-- OP, bits 31:24 (R58). -/
def opField (w : Word) : Byte := w.extractLsb' 24 8

/-- RSV, bits 23:16 (R58). -/
def rsvField (w : Word) : Byte := w.extractLsb' 16 8

/-- Operand A, bits 15:8 (R58, R59). -/
def aField (w : Word) : Byte := w.extractLsb' 8 8

/-- Operand B, bits 7:0 (R58, R59). -/
def bField (w : Word) : Byte := w.extractLsb' 0 8

/-- What R60 gives an opcode: the operand fields it uses, and the command made of them. -/
structure OpcodeUse where
  usesA : Bool
  usesB : Bool
  make : Byte → Byte → Instr

/-- The opcode map (R60), by opcode number. -/
def opcodeUse : Nat → Option OpcodeUse
  | 0x00 => some ⟨false, false, fun _ _ => .nop⟩
  | 0x01 => some ⟨false, false, fun _ _ => .clr⟩
  | 0x02 => some ⟨true, true, fun a b => .wrb a b⟩
  | 0x03 => some ⟨true, false, fun a _ => .rdb a⟩
  | 0x04 => some ⟨true, false, fun a _ => .setlen a⟩
  | 0x05 => some ⟨false, true, fun _ b => .push b⟩
  | 0x06 => some ⟨false, false, fun _ _ => .ckclr⟩
  | 0x07 => some ⟨false, true, fun _ b => .ckadd b⟩
  | 0x08 => some ⟨false, false, fun _ _ => .cksum⟩
  | 0x09 => some ⟨false, false, fun _ _ => .verify⟩
  | 0x0A => some ⟨false, false, fun _ _ => .sealOp⟩
  | 0x0B => some ⟨true, false, fun a _ => .lookup a⟩
  | 0x0C => some ⟨false, false, fun _ _ => .decode⟩
  | _ => none

/-- Decoding a word, the legality checks of R62 in its order. (Its busy check is the command's,
`Machine.whenIdle`.) -/
def decode (w : Word) : Except DecodeError Instr :=
  match opcodeUse (opField w).toNat with
  | none => .error .illegalOpcode
  | some u =>
    if rsvField w ≠ 0 then .error .reservedNonzero
    else if (!u.usesA && aField w != 0) || (!u.usesB && bField w != 0) then
      .error .unusedOperandNonzero
    else .ok (u.make (aField w) (bField w))

/-- The word of four fields, OP in the upper bits (R58). -/
def commandWord (op a b : Byte) : Word := op ++ 0#8 ++ a ++ b

/-- The word of a command (R60), unused fields 0. -/
def encode : Instr → Word
  | .nop => commandWord 0x00 0 0
  | .clr => commandWord 0x01 0 0
  | .wrb a b => commandWord 0x02 a b
  | .rdb a => commandWord 0x03 a 0
  | .setlen a => commandWord 0x04 a 0
  | .push b => commandWord 0x05 0 b
  | .ckclr => commandWord 0x06 0 0
  | .ckadd b => commandWord 0x07 0 b
  | .cksum => commandWord 0x08 0 0
  | .verify => commandWord 0x09 0 0
  | .sealOp => commandWord 0x0A 0 0
  | .lookup a => commandWord 0x0B a 0
  | .decode => commandWord 0x0C 0 0

/-- The 32-bit word whose low `nbits` bits are those of `w`, the bits above them 0. A command is
one host word (R58), so bit 0 of the table is bit 0 of the word. -/
def tableWord (nbits w : Nat) : Word := BitVec.ofNat 32 (w % 2 ^ nbits)

/-- The command the decoder reads from an opcode-table word; none where it refuses. -/
def decodeTableWord (nbits w : Nat) : Option Instr :=
  match decode (tableWord nbits w) with
  | .ok i => some i
  | .error _ => none

end Sys2Proof
end

