-- ==== Sys2Proof/Config.lean ====
section
/-! DEFINITION. What is fixed for one machine: the capacity and the block tag, and the values
the spec leaves open. An open value is a constant with no body, so nothing can be proved of its
value and a claim holds whatever it is (spec 93, I1 to I3, I14, I15). -/

namespace Sys2Proof.Config

/-- CAPACITY: the bytes of the frame buffer (R7). -/
abbrev capacity : Nat := 200

/-- BLKID (R22): tag 0xC516, spec major 1, minor 0. -/
def blkid : Word := 0xC5160100#32

/-- FBUF_INIT (R10): the byte FBUF[a] holds after power-on, any value. -/
opaque fbufInit : Nat → Byte

/-- Open part of W_UNIT_TYPE (R9): whether UNIT_TYPE has width 2 (else 1). -/
opaque unitTypeIsWide : Bool

/-- Open part of CATALOG (R8, R83): the entry of a code for which no rule fixes one. -/
opaque catalogRest : Byte → Option Byte

/-- Open codes WIFI_NAME and WIFI_PASSWORD (R82), as positions in the list of codes they may
have (`Machine.openCodes`). -/
opaque wifiNameIndex : Nat

/-- See `wifiNameIndex`. -/
opaque wifiPasswordIndex : Nat

/-- T24 (R71): the unknown code of TWENTY_FOUR_HOUR_MODE. -/
opaque t24Code : Byte

/-- The open interleaving of the two agents (R51, R131; I14): the n-th draw of how many host
accesses come before the Framer's next step. A finite number, so the Framer's step is weakly
fair (R103). Free value; log entry 1. -/
opaque hostBurst : Nat → Nat

end Sys2Proof.Config
end

