-- ==== Sys2Proof/Machine/State.lean ====
section
/-! DEFINITION. The state (R18): the frame buffer, the host-visible registers, the decode state
machine, the shadow snapshot; and beside the block the other agent of a model (R17, R131), the
host with the accesses it has still to make. Plain data throughout. The catalog ROM is constant
(R36) and stands in Machine/Catalog.lean. -/

namespace Sys2Proof.Machine

/-- FBUF as (address, byte) pairs. Canonical form (`Memory.wf`): the addresses 0 to 199, each
once, rising; so no address that exists is unlisted, and equal buffers are equal lists. -/
abbrev Memory := List Host.Cell

/-- STATE (R25): the decode state machine. -/
inductive FramerState where
  | idle | hdr | cks | idn | fn | par | accept | reject
  deriving DecidableEq, Repr

/-- The error codes of R121, for DERR and CERR. -/
inductive ErrorCode where
  | none
  | headerInvalid
  | checksumMismatch
  | unexpectedFunction
  | unknownParameter
  | truncatedBuffer
  | encodingOverflow
  | illegalCommand
  | busyViolation
  deriving DecidableEq, Repr

/-- LKUP.CLASS (R30); class 3 is never produced. -/
inductive LookupClass where
  | notFound | fixed | escape
  deriving DecidableEq, Repr

/-- LKUP (R30). -/
structure Lkup where
  cls : LookupClass
  width : Byte
  deriving DecidableEq, Repr

/-- A telemetry snapshot: the fields of VALID, TEL0, TEL1, FW0, FW1, SID0..SID3 and IDENT (R21,
R31, R32). The register words are views of these fields (Machine/Flags.lean). -/
structure Snapshot where
  valid : BitVec 9
  onOff : Byte
  battery : Byte
  temperature : Byte
  humidity : Byte
  fanSpeed : Half
  unitType : Byte
  fwMajor : Byte
  fwMinor : Byte
  fwDay : Byte
  fwMonth : Byte
  fwYear : Half
  sid0 : Word
  sid1 : Word
  sid2 : Word
  sid3 : Word
  idOff : Byte
  idLen : Byte
  pwOff : Byte
  pwLen : Byte
  deriving DecidableEq, Repr

/-- The cleared snapshot (R102, R110). -/
def Snapshot.zero : Snapshot where
  valid := 0
  onOff := 0
  battery := 0
  temperature := 0
  humidity := 0
  fanSpeed := 0
  unitType := 0
  fwMajor := 0
  fwMinor := 0
  fwDay := 0
  fwMonth := 0
  fwYear := 0
  sid0 := 0
  sid1 := 0
  sid2 := 0
  sid3 := 0
  idOff := 0
  idLen := 0
  pwOff := 0
  pwLen := 0

/-- Where and how wide a host access is: its width in bytes and its byte offset. Only some
accesses exist (R40, `Access.legal`). -/
structure Access where
  bytes : Nat
  off : Nat
  deriving DecidableEq, Repr

/-- One operation of a host program (R63 to R65): a register write, a register read whose result
gets a name (a number here), or the poll loop WAIT, whose reads get a name. -/
inductive HostOp where
  | write (acc : Access) (value : Word)
  | read (acc : Access) (name : Nat)
  | wait (name : Nat)
  deriving DecidableEq, Repr

/-- The result of one host read. -/
structure HostRead where
  name : Nat
  value : Word
  deriving DecidableEq, Repr

/-- The state of one block instance and of its host. -/
structure State where
  /-- FBUF[0..199] (R35). -/
  fbuf : Memory
  /-- LEN (R26). -/
  len : Byte
  /-- CURSOR (R27). -/
  cursor : Byte
  /-- ACC (R28). -/
  acc : Half
  /-- RDATA (R29). -/
  rdata : Byte
  /-- LKUP (R30). -/
  lkup : Lkup
  /-- STATUS.STATE (R24, R25); STATUS.BUSY is its view `State.busy`. -/
  fsm : FramerState
  /-- STATUS.DONE (R24). -/
  done : Bool
  /-- STATUS.ACCEPTED (R24). -/
  accepted : Bool
  /-- STATUS.CKOK (R24). -/
  ckok : Bool
  /-- STATUS.CMDERR (R24). -/
  cmderr : Bool
  /-- STATUS.DERR (R24). -/
  derr : ErrorCode
  /-- STATUS.CERR (R24). -/
  cerr : ErrorCode
  /-- PEND (R34), internal. -/
  pend : Byte
  /-- The committed snapshot (R31, R32). -/
  snap : Snapshot
  /-- The shadow snapshot (R33), internal. -/
  shadow : Snapshot
  /-- The host's program from its counter on (R65). -/
  hostOps : List HostOp
  /-- The results of the host's reads, oldest first. -/
  hostReads : List HostRead
  /-- The model's own: host accesses that still come before the Framer's next step while BUSY = 1.
  A free value (log entry 1). -/
  hostTurns : Nat
  /-- The model's own: how many values of `Config.hostBurst` have been drawn (log entry 1). -/
  draws : Nat
  deriving DecidableEq, Repr

/-- Why the machine stops with a fault. -/
inductive Fault where
  /-- Raised by the step when neither agent has an enabled step: BUSY = 0 and the host's program
  has ended (R65, R103). Safe: the block makes no step either. -/
  | noEnabledStep
  deriving DecidableEq, Repr

/-- Why the model has no step. -/
inductive Refusal where
  /-- Raised by an arm of `exec` for a command without a meaning. No arm raises it. Safe. -/
  | notModelled (mnemonic : String)
  /-- Raised by a host access that does not exist: not 32 bits wide, not at a multiple of 4 or
  past 0xFC, which "a model refuses (no step)" (R40). Safe: nothing can be proved of it. -/
  | hostAccess
  deriving DecidableEq, Repr

/-- What a command or a step answers. -/
abbrev Result := Host.Outcome State Fault Refusal

/-- FBUF after power-on: FBUF_INIT (R10, R35, R136). -/
def Memory.reset : Memory := (List.range Config.capacity).map fun a => (a, Config.fbufInit a)

/-- The state after power-on reset (R136). The host's program is empty: one is loaded from
outside (log entry 2). -/
def State.reset : State where
  fbuf := Memory.reset
  len := 0
  cursor := 0
  acc := 0
  rdata := 0
  lkup := ⟨.notFound, 0⟩
  fsm := .idle
  done := false
  accepted := false
  ckok := false
  cmderr := false
  derr := .none
  cerr := .none
  pend := 0
  snap := Snapshot.zero
  shadow := Snapshot.zero
  hostOps := []
  hostReads := []
  hostTurns := Config.hostBurst 0
  draws := 1

end Sys2Proof.Machine
end

