-- ==== Sys2Proof/Machine/Ops.lean ====
section
/-! DEFINITION. The named operations over the frame buffer and the registers: MemRead and MemWrite
(R13), the sum16 reduction (R14, R87), the snapshot's VALID bits, and the two error outcomes, a
command error (R122) and a rejection (R110), with accept() (R109) and the soft reset (R97). An
error transfers control nowhere and nothing returns from it (R127, R128). -/

namespace Sys2Proof.Machine

/-- MemRead(a, 1) (R13). An address past 199 does not exist and no meaning reads one while
LEN <= 200; an unlisted address gives the free value FBUF_INIT[a]. -/
def Memory.read : Memory → Nat → Byte
  | [], a => Config.fbufInit a
  | (k, v) :: m, a => if k = a then v else Memory.read m a

/-- MemWrite(a, 1, v) (R13), keeping the addresses rising. -/
def Memory.write : Memory → Nat → Byte → Memory
  | [], a, v => [(a, v)]
  | (k, u) :: m, a, v =>
    if a < k then (a, v) :: (k, u) :: m
    else if k = a then (a, v) :: m
    else (k, u) :: Memory.write m a v

/-- The canonical form: exactly the addresses 0 to 199, rising (R11, R35). -/
def Memory.wf (m : Memory) : Bool := m.map Prod.fst == List.range Config.capacity

/-- The exact sum of the `n` bytes from address `a` on. -/
def byteSum (m : Memory) (a : Nat) : Nat → Nat
  | 0 => 0
  | n + 1 => (m.read a).toNat + byteSum m (a + 1) n

/-- sum16(a, b) (R14): the bytes of [a, b) summed modulo 65536, 0 for an empty range. -/
def sum16 (m : Memory) (a b : Nat) : Half := BitVec.ofNat 16 (byteSum m a (b - a))

/-- Setting one VALID bit (R31). -/
def setValid (k : Nat) (v : BitVec 9) : BitVec 9 := v ||| BitVec.twoPow 9 k

/-- Reading one VALID bit (R31). -/
def Snapshot.has (n : Snapshot) (k : Nat) : Bool := n.valid.getLsbD k

/-- STATUS.BUSY (R24), which is 1 exactly when STATE is in 1..5 (R25). -/
def State.busy (s : State) : Bool :=
  match s.fsm with
  | .idle | .accept | .reject => false
  | .hdr | .cks | .idn | .fn | .par => true

/-- `raise CmdError(code)` (R122): CMDERR and CERR, and no other state. -/
def commandError (code : ErrorCode) (s : State) : State :=
  { s with cmderr := true, cerr := code }

/-- The busy check every command but NOP and CLR makes first (R124, R126). -/
def whenIdle (s : State) (effect : State → Result) : Result :=
  if s.busy then .next (commandError .busyViolation s) else effect s

/-- `reject(code, pos)` (R110). -/
def reject (code : ErrorCode) (pos : Nat) (s : State) : State :=
  { s with
    cursor := BitVec.ofNat 8 pos
    derr := code
    done := true
    accepted := false
    shadow := Snapshot.zero
    fsm := .reject }

/-- `accept()` (R109). -/
def accept (s : State) : State :=
  { s with
    snap := s.shadow
    accepted := true
    done := true
    derr := .none
    fsm := .accept }

/-- The register writes of CLR (R97): every register 0, a running decode aborted, FBUF kept. -/
def softReset (s : State) : State :=
  { s with
    fsm := .idle
    pend := 0
    len := 0
    cursor := 0
    acc := 0
    rdata := 0
    lkup := ⟨.notFound, 0⟩
    done := false
    accepted := false
    ckok := false
    cmderr := false
    derr := .none
    cerr := .none
    snap := Snapshot.zero
    shadow := Snapshot.zero }

/-- The register writes that start a decode (R102). -/
def startDecode (s : State) : State :=
  { s with
    snap := Snapshot.zero
    shadow := Snapshot.zero
    done := false
    accepted := false
    derr := .none
    cursor := 0
    fsm := .hdr }

end Sys2Proof.Machine
end

