-- ==== Sys2Proof/Machine/Operands.lean ====
section
/-! DEFINITION. Operand forms: operand A as an FBUF address and as a length (R59), the
little-endian assemblies of wire bytes (R12, R42, R43), and the legal host accesses (R40). -/

namespace Sys2Proof.Machine

/-- Operand A as an FBUF address, compared with 200 unchanged (R59): the address exists. -/
def addressExists (a : Byte) : Bool := decide (a.toNat < Config.capacity)

/-- Operand A as a frame length, compared with 200 unchanged (R59, R100). -/
def lengthFits (a : Byte) : Bool := decide (a.toNat ≤ Config.capacity)

/-- LE16(b0, b1): the byte at the lower offset is the low byte (R12, R42). -/
def le16 (b0 b1 : Byte) : Half := b1 ++ b0

/-- Four bytes in the order of R43: byte j in bits [8j+7:8j]. -/
def le32 (b0 b1 b2 b3 : Byte) : Word := b3 ++ b2 ++ b1 ++ b0

/-- The low byte of a sum, the first trailer byte (R95). -/
def lowByte (h : Half) : Byte := h.extractLsb' 0 8

/-- The high byte of a sum, the second trailer byte (R95). -/
def highByte (h : Half) : Byte := h.extractLsb' 8 8

/-- The host accesses that exist: 32 bits wide, at a multiple of 4 in 0x00..0xFC (R40, R45). -/
def Access.legal (acc : Access) : Bool :=
  decide (acc.bytes = 4) && decide (acc.off % 4 = 0) && decide (acc.off ≤ 0xFC)

/-- The 32-bit access at a byte offset. -/
def wordAt (off : Nat) : Access := ⟨4, off⟩

end Sys2Proof.Machine
end

