-- ==== Sys2Proof/Machine/Flags.lean ====
section
/-! DEFINITION. STATUS and its fields as a host reads them (R24, R25, R121), and the words of
LKUP (R30) and of the snapshot registers (R21, R31, R32). No arithmetic flag exists: CKADD and the
reductions write no carry or overflow (R92). -/

namespace Sys2Proof.Machine

/-- The encoding of STATE (R25). -/
def FramerState.code : FramerState → BitVec 3
  | .idle => 0
  | .hdr => 1
  | .cks => 2
  | .idn => 3
  | .fn => 4
  | .par => 5
  | .accept => 6
  | .reject => 7

/-- The number of an error code (R121). -/
def ErrorCode.code : ErrorCode → BitVec 4
  | .none => 0
  | .headerInvalid => 1
  | .checksumMismatch => 2
  | .unexpectedFunction => 3
  | .unknownParameter => 4
  | .truncatedBuffer => 5
  | .encodingOverflow => 6
  | .illegalCommand => 7
  | .busyViolation => 8

/-- The encoding of LKUP.CLASS (R30). -/
def LookupClass.code : LookupClass → BitVec 2
  | .notFound => 0
  | .fixed => 1
  | .escape => 2

/-- STATUS (R24): BUSY[0], STATE[3:1], DONE[4], ACCEPTED[5], CKOK[6], CMDERR[7], DERR[11:8],
CERR[15:12], the rest 0. -/
def statusWord (s : State) : Word :=
  0#16 ++ s.cerr.code ++ s.derr.code ++ BitVec.ofBool s.cmderr ++ BitVec.ofBool s.ckok ++
    BitVec.ofBool s.accepted ++ BitVec.ofBool s.done ++ s.fsm.code ++ BitVec.ofBool s.busy

/-- LKUP (R30): WIDTH[7:0], CLASS[9:8]. -/
def Lkup.word (l : Lkup) : Word := 0#22 ++ l.cls.code ++ l.width

/-- VALID (R31): bits 31:9 read 0. -/
def Snapshot.validWord (n : Snapshot) : Word := 0#23 ++ n.valid

/-- TEL0 (R21). -/
def Snapshot.tel0 (n : Snapshot) : Word := n.humidity ++ n.temperature ++ n.battery ++ n.onOff

/-- TEL1 (R21). -/
def Snapshot.tel1 (n : Snapshot) : Word := 0#8 ++ n.unitType ++ n.fanSpeed

/-- FW0 (R21). -/
def Snapshot.fw0 (n : Snapshot) : Word := n.fwMonth ++ n.fwDay ++ n.fwMinor ++ n.fwMajor

/-- FW1 (R21). -/
def Snapshot.fw1 (n : Snapshot) : Word := 0#16 ++ n.fwYear

/-- IDENT (R21). -/
def Snapshot.ident (n : Snapshot) : Word := n.pwLen ++ n.pwOff ++ n.idLen ++ n.idOff

end Sys2Proof.Machine
end

