-- ==== Sys2Proof/Machine/FrameBuffer.lean ====
section
/-! DEFINITION. The frame-buffer and control commands (R96 to R101). -/

namespace Sys2Proof.Machine

/-- NOP (R96): nothing, also while BUSY = 1. -/
def execNop (s : State) : Result := .next s

/-- CLR (R97): accepted while BUSY = 1, which aborts the decode. -/
def execClr (s : State) : Result := .next (softReset s)

/-- WRB a, b (R98). -/
def execWrb (a b : Byte) (s : State) : Result :=
  whenIdle s fun s =>
    if addressExists a then .next { s with fbuf := s.fbuf.write a.toNat b }
    else .next (commandError .encodingOverflow s)

/-- RDB a (R99). -/
def execRdb (a : Byte) (s : State) : Result :=
  whenIdle s fun s =>
    if addressExists a then .next { s with rdata := s.fbuf.read a.toNat }
    else .next (commandError .truncatedBuffer s)

/-- SETLEN a (R100). -/
def execSetlen (a : Byte) (s : State) : Result :=
  whenIdle s fun s =>
    if lengthFits a then .next { s with len := a }
    else .next (commandError .encodingOverflow s)

/-- PUSH b (R101): a write at an address past 199 is an overflow (R48), which is LEN = 200 since
LEN <= 200 (R26). -/
def execPush (b : Byte) (s : State) : Result :=
  whenIdle s fun s =>
    if addressExists s.len then
      .next { s with fbuf := s.fbuf.write s.len.toNat b, len := s.len + 1 }
    else .next (commandError .encodingOverflow s)

end Sys2Proof.Machine
end

