-- ==== Sys2Proof/Machine/Catalog.lean ====
section
/-! DEFINITION. The parameter catalog ROM (R80 to R85) and LOOKUP (R86). CATALOG is an open
parameter (R8): the entries the rules fix stand here, the rest is `Config.catalogRest`. -/

namespace Sys2Proof.Machine

/-- The reserved escape code (R84), recognised before the ROM is consulted. -/
def escapeCode : Byte := 0xFE#8

/-- W_UNIT_TYPE in {1, 2} (R9). -/
def unitTypeWidth : Byte := if Config.unitTypeIsWide then 2 else 1

/-- The entries of R81. -/
def fixedWidth (c : Byte) : Option Byte :=
  match c.toNat with
  | 0x01 => some 1
  | 0x02 => some 1
  | 0x04 => some 2
  | 0x2E => some 1
  | 0x31 => some 1
  | 0x7C => some 16
  | 0x86 => some 6
  | 0xB9 => some unitTypeWidth
  | _ => none

/-- The codes WIFI_NAME and WIFI_PASSWORD may have: their width is 0 (R82), so they are no code of
R81, and 0xFE is no catalog code (R84). -/
def openCodes : List Byte :=
  ((List.range 256).map (BitVec.ofNat 8)).filter fun c => (fixedWidth c).isNone && c != escapeCode

/-- WIFI_NAME, an unknown code (R82). -/
def wifiName : Byte := openCodes.getD (Config.wifiNameIndex % openCodes.length) 0

/-- WIFI_PASSWORD, an unknown code (R82). -/
def wifiPassword : Byte := openCodes.getD (Config.wifiPasswordIndex % openCodes.length) 0

/-- CATALOG(c) (R80): `none` is NotFound. The entries of R81, width 0 for the wifi codes (R82), any
entry for every other code (R83). -/
def catalog (c : Byte) : Option Byte :=
  match fixedWidth c with
  | some w => some w
  | none => if c = wifiName ∨ c = wifiPassword then some 0 else Config.catalogRest c

/-- What LOOKUP reports for a code (R86): ESCAPE for 0xFE whatever the ROM holds. -/
def lookupResult (c : Byte) : Lkup :=
  if c = escapeCode then ⟨.escape, 0⟩
  else
    match catalog c with
    | none => ⟨.notFound, 0⟩
    | some w => ⟨.fixed, w⟩

/-- LOOKUP a (R86). -/
def execLookup (a : Byte) (s : State) : Result :=
  whenIdle s fun s => .next { s with lkup := lookupResult a }

end Sys2Proof.Machine
end

