-- ==== Sys2Proof/Machine/Checksum.lean ====
section
/-! DEFINITION. The checksum engine's commands (R87 to R95). -/

namespace Sys2Proof.Machine

/-- The trailer of a frame of `n` bytes: its last two, little-endian (R70). -/
def trailer (m : Memory) (n : Nat) : Half := le16 (m.read (n - 2)) (m.read (n - 1))

/-- CKCLR (R91). -/
def execCkclr (s : State) : Result :=
  whenIdle s fun s => .next { s with acc := 0 }

/-- CKADD b (R92): wraps modulo 65536, no flag. -/
def execCkadd (b : Byte) (s : State) : Result :=
  whenIdle s fun s => .next { s with acc := s.acc + b.setWidth 16 }

/-- CKSUM (R93). -/
def execCksum (s : State) : Result :=
  whenIdle s fun s => .next { s with acc := sum16 s.fbuf 2 s.len.toNat }

/-- VERIFY (R94): a mismatch is no error, a frame shorter than 4 bytes is one. -/
def execVerify (s : State) : Result :=
  whenIdle s fun s =>
    if s.len.toNat < 4 then .next (commandError .truncatedBuffer s)
    else
      let sum := sum16 s.fbuf 2 (s.len.toNat - 2)
      .next { s with acc := sum, ckok := decide (sum = trailer s.fbuf s.len.toNat) }

/-- The two trailer bytes SEAL appends at LEN and LEN + 1 (R95). -/
def appendTrailer (m : Memory) (n : Nat) (sum : Half) : Memory :=
  (m.write n (lowByte sum)).write (n + 1) (highByte sum)

/-- SEAL (R95): the overflow check comes before any write. -/
def execSeal (s : State) : Result :=
  whenIdle s fun s =>
    if s.len.toNat + 2 > Config.capacity then .next (commandError .encodingOverflow s)
    else
      let sum := sum16 s.fbuf 2 s.len.toNat
      .next { s with fbuf := appendTrailer s.fbuf s.len.toNat sum, acc := sum, len := s.len + 2 }

end Sys2Proof.Machine
end

