-- ==== Sys2Proof/Machine/Framer.lean ====
section
/-! DEFINITION. The response framer: DECODE (R102), the Framer's step in each state of the decode
state machine (R103 to R108) and the semantic decode (R111 to R115). -/

namespace Sys2Proof.Machine

/-- DECODE (R102): starts the framer and no more; LEN is the frame's length. -/
def execDecode (s : State) : Result :=
  whenIdle s fun s => .next (startDecode s)

/-- The parameters with a semantic decode (R111). -/
inductive Attr where
  | onOff | battery | temperature | fanSpeed | humidity | firmware | unitType | searchId
  deriving DecidableEq, Repr

/-- The code column of R111. -/
def attrOfCode (c : Byte) : Option Attr :=
  match c.toNat with
  | 0x01 => some .onOff
  | 0x02 => some .battery
  | 0x31 => some .temperature
  | 0x04 => some .fanSpeed
  | 0x2E => some .humidity
  | 0x86 => some .firmware
  | 0xB9 => some .unitType
  | 0x7C => some .searchId
  | _ => none

/-- The SEMW column of R111. -/
def semanticWidth : Attr → Nat
  | .onOff => 1
  | .battery => 1
  | .temperature => 1
  | .fanSpeed => 2
  | .humidity => 1
  | .firmware => 6
  | .unitType => unitTypeWidth.toNat
  | .searchId => 16

/-- The VALID bit column of R111. -/
def validBit : Attr → Nat
  | .onOff => 0
  | .battery => 1
  | .temperature => 2
  | .fanSpeed => 3
  | .humidity => 4
  | .firmware => 5
  | .unitType => 6
  | .searchId => 7

/-- The payload bytes b_i = FBUF[p + i] of R111. -/
def payloadAt (m : Memory) (p : Nat) (i : Nat) : Byte := m.read (p + i)

/-- The shadow write column of R111, from the payload bytes `b`; values raw (R115). -/
def storeField (a : Attr) (b : Nat → Byte) (n : Snapshot) : Snapshot :=
  match a with
  | .onOff => { n with onOff := if b 0 ≠ 0 then 1 else 0 }
  | .battery => { n with battery := b 0 }
  | .temperature => { n with temperature := b 0 }
  | .fanSpeed => { n with fanSpeed := le16 (b 0) (b 1) }
  | .humidity => { n with humidity := b 0 }
  | .firmware =>
    { n with
      fwMajor := b 0
      fwMinor := b 1
      fwDay := b 2
      fwMonth := b 3
      fwYear := le16 (b 4) (b 5) }
  | .unitType => { n with unitType := b 0 }
  | .searchId =>
    { n with
      sid0 := le32 (b 0) (b 1) (b 2) (b 3)
      sid1 := le32 (b 4) (b 5) (b 6) (b 7)
      sid2 := le32 (b 8) (b 9) (b 10) (b 11)
      sid3 := le32 (b 12) (b 13) (b 14) (b 15) }

/-- A field's write together with its VALID bit (R112). -/
def storeAttr (a : Attr) (b : Nat → Byte) (n : Snapshot) : Snapshot :=
  { storeField a b n with valid := setValid (validBit a) n.valid }

/-- semantic(real, w, b) (R112): only a code of R111 at its semantic width is decoded; every other
parameter is skipped silently (R113). -/
def semantic (real : Byte) (w : Nat) (b : Nat → Byte) (n : Snapshot) : Snapshot :=
  match attrOfCode real with
  | some a => if w = semanticWidth a then storeAttr a b n else n
  | none => n

/-- HDR (R104). -/
def framerHdr (s : State) : State :=
  if s.len.toNat < 3 then reject .truncatedBuffer 0 s
  else if s.fbuf.read 0 ≠ 0xFD ∨ s.fbuf.read 1 ≠ 0xFD ∨ s.fbuf.read 2 ≠ 0x02 then
    reject .headerInvalid 0 s
  else { s with cursor := 3, fsm := .cks }

/-- CKS (R105): ACC is written even on a mismatch. -/
def framerCks (s : State) : State :=
  if s.len.toNat < 4 then reject .truncatedBuffer 0 s
  else
    let sum := sum16 s.fbuf 2 (s.len.toNat - 2)
    let s := { s with acc := sum }
    if sum ≠ trailer s.fbuf s.len.toNat then reject .checksumMismatch 0 s
    else { s with pend := s.len - 2, fsm := .idn }

/-- The end of IDN: the identity block's place and lengths (R106). -/
def storeIdent (idOff idLen pwOff pwLen : Nat) (n : Snapshot) : Snapshot :=
  { n with
    idOff := BitVec.ofNat 8 idOff
    idLen := BitVec.ofNat 8 idLen
    pwOff := BitVec.ofNat 8 pwOff
    pwLen := BitVec.ofNat 8 pwLen
    valid := setValid 8 n.valid }

/-- IDN (R106): two length-prefixed strings, their reads bounded by PEND. -/
def framerIdn (s : State) : State :=
  let pend := s.pend.toNat
  let c := s.cursor.toNat
  if c ≥ pend then reject .truncatedBuffer c s
  else
    let n := (s.fbuf.read c).toNat
    let idOff := c + 1
    if idOff + n > pend then reject .truncatedBuffer idOff s
    else
      let c := idOff + n
      if c ≥ pend then reject .truncatedBuffer c s
      else
        let m := (s.fbuf.read c).toNat
        let pwOff := c + 1
        if pwOff + m > pend then reject .truncatedBuffer pwOff s
        else
          { s with
            shadow := storeIdent idOff n pwOff m s.shadow
            cursor := BitVec.ofNat 8 (pwOff + m)
            fsm := .fn }

/-- The function code RESPONSE (R69), the only one an inbound datagram may have. -/
def responseCode : Byte := 0x06#8

/-- FUN (R107). -/
def framerFun (s : State) : State :=
  let c := s.cursor.toNat
  if c ≥ s.pend.toNat then reject .truncatedBuffer c s
  else if s.fbuf.read c ≠ responseCode then reject .unexpectedFunction c s
  else { s with cursor := BitVec.ofNat 8 (c + 1), fsm := .par }

/-- The end of a PAR step: the payload of `w` bytes at `p` must fit before PEND, is decoded, and
the cursor moves past it (R108). -/
def takeParameter (real : Byte) (w p : Nat) (s : State) : State :=
  if p + w > s.pend.toNat then reject .truncatedBuffer p s
  else
    { s with
      shadow := semantic real w (payloadAt s.fbuf p) s.shadow
      cursor := BitVec.ofNat 8 (p + w) }

/-- PAR (R108), one parameter a step; it accepts only at CURSOR = PEND. -/
def framerPar (s : State) : State :=
  let c := s.cursor.toNat
  let pend := s.pend.toNat
  if c = pend then accept s
  else
    let code := s.fbuf.read c
    if code = escapeCode then
      if c + 1 ≥ pend then reject .truncatedBuffer (c + 1) s
      else if c + 2 ≥ pend then reject .truncatedBuffer (c + 2) s
      else takeParameter (s.fbuf.read (c + 2)) (s.fbuf.read (c + 1)).toNat (c + 3) s
    else
      match catalog code with
      | none => reject .unknownParameter c s
      | some w => takeParameter code w.toNat (c + 1) s

/-- The Framer's one step while BUSY = 1, the rule of the current STATE; it has none when
BUSY = 0 (R103). -/
def framerStep (s : State) : State :=
  match s.fsm with
  | .hdr => framerHdr s
  | .cks => framerCks s
  | .idn => framerIdn s
  | .fn => framerFun s
  | .par => framerPar s
  | .idle | .accept | .reject => s

end Sys2Proof.Machine
end

