-- ==== Sys2Proof/Machine/Dispatch.lean ====
section
/-! DEFINITION. The dispatch from a command to its meaning, one arm per constructor of Instr. -/

namespace Sys2Proof.Machine

def exec (i : Instr) (s : State) : Host.Outcome State Fault Refusal :=
  match i with
  | .nop => Sys2Proof.Machine.execNop s
  | .clr => Sys2Proof.Machine.execClr s
  | .wrb a b => Sys2Proof.Machine.execWrb a b s
  | .rdb a => Sys2Proof.Machine.execRdb a s
  | .setlen a => Sys2Proof.Machine.execSetlen a s
  | .push b => Sys2Proof.Machine.execPush b s
  | .ckclr => Sys2Proof.Machine.execCkclr s
  | .ckadd b => Sys2Proof.Machine.execCkadd b s
  | .cksum => Sys2Proof.Machine.execCksum s
  | .verify => Sys2Proof.Machine.execVerify s
  | .sealOp => Sys2Proof.Machine.execSeal s
  | .lookup a => Sys2Proof.Machine.execLookup a s
  | .decode => Sys2Proof.Machine.execDecode s

end Sys2Proof.Machine
end

