-- ==== Sys2Proof/Machine/Registers.lean ====
section
/-! DEFINITION. The host register map (R21) and a host read (R38). -/

namespace Sys2Proof.Machine

/-- The host registers (R21). -/
inductive Reg where
  | blkid | cmd | status | len | cursor | acc | rdata | lkup | valid | tel0 | tel1 | fw0 | fw1
  | sid0 | sid1 | sid2 | sid3 | ident
  deriving DecidableEq, Repr

/-- The offset column of R21. -/
def regOffset : Reg → Nat
  | .blkid => 0x00
  | .cmd => 0x04
  | .status => 0x08
  | .len => 0x0C
  | .cursor => 0x10
  | .acc => 0x14
  | .rdata => 0x18
  | .lkup => 0x1C
  | .valid => 0x20
  | .tel0 => 0x24
  | .tel1 => 0x28
  | .fw0 => 0x2C
  | .fw1 => 0x30
  | .sid0 => 0x34
  | .sid1 => 0x38
  | .sid2 => 0x3C
  | .sid3 => 0x40
  | .ident => 0x44

/-- The register at an offset; none at an unmapped one. -/
def regAt : Nat → Option Reg
  | 0x00 => some .blkid
  | 0x04 => some .cmd
  | 0x08 => some .status
  | 0x0C => some .len
  | 0x10 => some .cursor
  | 0x14 => some .acc
  | 0x18 => some .rdata
  | 0x1C => some .lkup
  | 0x20 => some .valid
  | 0x24 => some .tel0
  | 0x28 => some .tel1
  | 0x2C => some .fw0
  | 0x30 => some .fw1
  | 0x34 => some .sid0
  | 0x38 => some .sid1
  | 0x3C => some .sid2
  | 0x40 => some .sid3
  | 0x44 => some .ident
  | _ => none

/-- The value a read of a register returns (R21 to R32): CMD reads 0 and bits not listed
read 0. -/
def readReg (r : Reg) (s : State) : Word :=
  match r with
  | .blkid => Config.blkid
  | .cmd => 0
  | .status => statusWord s
  | .len => s.len.setWidth 32
  | .cursor => s.cursor.setWidth 32
  | .acc => s.acc.setWidth 32
  | .rdata => s.rdata.setWidth 32
  | .lkup => s.lkup.word
  | .valid => s.snap.validWord
  | .tel0 => s.snap.tel0
  | .tel1 => s.snap.tel1
  | .fw0 => s.snap.fw0
  | .fw1 => s.snap.fw1
  | .sid0 => s.snap.sid0
  | .sid1 => s.snap.sid1
  | .sid2 => s.snap.sid2
  | .sid3 => s.snap.sid3
  | .ident => s.snap.ident

/-- A host read of an offset (R38): 0 at an unmapped one. It changes no state. -/
def readAt (off : Nat) (s : State) : Word :=
  match regAt off with
  | some r => readReg r s
  | none => 0

end Sys2Proof.Machine
end

