-- ==== Sys2Proof/Machine/HostAgent.lean ====
section
/-! DEFINITION. The host's steps (R38 to R40, R46, R47, R64, R65), the Framer's turn (R103), and
which agent moves next (R51, R131). -/

namespace Sys2Proof.Machine

/-- A write of a word to CMD (R23, R39, R62): an illegal encoding is an ILLEGAL_COMMAND command
error, before the busy check; a legal word runs its command. -/
def runCommand (w : Word) (s : State) : Result :=
  match decode w with
  | .ok i => exec i s
  | .error _ => .next (commandError .illegalCommand s)

/-- A host write (R39, R47): CMD runs a command, every other offset ignores it. -/
def hostWrite (acc : Access) (v : Word) (s : State) : Result :=
  if !acc.legal then .refused .hostAccess
  else if acc.off = regOffset .cmd then runCommand v s
  else .next s

/-- The result of a read, noted on the host's side. -/
def noteRead (name : Nat) (v : Word) (s : State) : State :=
  { s with hostReads := s.hostReads ++ [⟨name, v⟩] }

/-- A host read (R38). -/
def hostRead (acc : Access) (name : Nat) (s : State) : Result :=
  if !acc.legal then .refused .hostAccess
  else .next (noteRead name (readAt acc.off s) s)

/-- One poll of WAIT (R64): a read of STATUS, and the host stays on the WAIT while DONE = 0. -/
def hostPoll (name : Nat) (s : State) : Result :=
  let v := readReg .status s
  if v.getLsbD 4 then .next (noteRead name v s)
  else .next { noteRead name v s with hostOps := .wait name :: s.hostOps }

/-- One host step: the access of the operation just taken from the program. -/
def hostAccess (op : HostOp) (s : State) : Result :=
  match op with
  | .write acc v => hostWrite acc v s
  | .read acc name => hostRead acc name s
  | .wait name => hostPoll name s

/-- The Framer's step, after which the next count of host accesses is drawn (log entry 1). -/
def framerTurn (s : State) : State :=
  { framerStep s with hostTurns := Config.hostBurst s.draws, draws := s.draws + 1 }

/-- One step of the machine (R131). While BUSY = 1 both agents may move: the host while it has an
operation and accesses left before the Framer's next step, else the Framer. While BUSY = 0 only
the host can step (R137), and when its program has ended nothing can. -/
def advance (s : State) : Result :=
  match s.busy, s.hostOps, s.hostTurns with
  | true, op :: ops, k + 1 => hostAccess op { s with hostOps := ops, hostTurns := k }
  | true, _, _ => .next (framerTurn s)
  | false, op :: ops, _ => hostAccess op { s with hostOps := ops }
  | false, [], _ => .fault .noEnabledStep

/-- The write of a command word to CMD, as a host operation (R23, R63). -/
def commandOp (w : Word) : HostOp := .write (wordAt (regOffset .cmd)) w

/-- The state in which the host's next operation, to be taken in the very next step, is the write
of `w` to CMD; the rest of its program follows. -/
def withCommand (w : Word) (s : State) : State :=
  { s with
    hostOps := commandOp w :: s.hostOps
    hostTurns := if s.busy then s.hostTurns + 1 else s.hostTurns }

end Sys2Proof.Machine
end

