-- ==== Sys2Proof/Machine/Step.lean ====
section
/-! DEFINITION. The step, and how a command word comes to be the next one. -/

namespace Sys2Proof.Machine

/-- One step of one agent (R17, R131). -/
def step (s : State) : Host.Outcome State Fault Refusal := advance s

/-- `s` with the command word of an opcode-table row as the host's next operation (log entry 2). -/
def State.withFetchWord (s : State) (nbits w : Nat) : State := withCommand (tableWord nbits w) s

end Sys2Proof.Machine
end

