-- ==== Sys2Proof/Machine/Wire.lean ====
section
/-! DEFINITION. The datagram wire format (R66 to R72) and the outbound frames of R73 to R79, as
byte lists. The host forms these bytes; the block seals them (R95). -/

namespace Sys2Proof.Machine

/-- The fixed magic sequence (R67). -/
def headerMagic : List Byte := [0xFD#8, 0xFD#8, 0x02#8]

/-- The function codes (R69). -/
inductive FunctionCode where
  | read | write | writeRead | incRead | decRead | response
  deriving DecidableEq, Repr

/-- The numbers of R69. -/
def FunctionCode.code : FunctionCode → Byte
  | .read => 1
  | .write => 2
  | .writeRead => 3
  | .incRead => 4
  | .decRead => 5
  | .response => 6

/-- The parameter codes the source gives (R71), and T24 with its unknown code. -/
inductive ParamCode where
  | onOff | batteryStatus | fanSpeed | boostMode | humidity | temperature | deviceSearch
  | readFirmwareVersion | unitType | twentyFourHourMode
  deriving DecidableEq, Repr

/-- The numbers of R71. -/
def ParamCode.code : ParamCode → Byte
  | .onOff => 0x01
  | .batteryStatus => 0x02
  | .fanSpeed => 0x04
  | .boostMode => 0x05
  | .humidity => 0x2E
  | .temperature => 0x31
  | .deviceSearch => 0x7C
  | .readFirmwareVersion => 0x86
  | .unitType => 0xB9
  | .twentyFourHourMode => Config.t24Code

/-- `str(s)`: one length byte, then the bytes (R68). -/
def lengthPrefixed (s : List Byte) : List Byte := BitVec.ofNat 8 s.length :: s

/-- The exact sum of a list of bytes. -/
def listSum : List Byte → Nat
  | [] => 0
  | b :: bs => b.toNat + listSum bs

/-- The checksum of a frame before its trailer: every byte from offset 2 on, modulo 65536
(R70, R87). -/
def checksumOf (body : List Byte) : Half := BitVec.ofNat 16 (listSum (body.drop 2))

/-- A frame without its trailer (R73). -/
def frameBody (id pw : List Byte) (func : Byte) (params : List Byte) : List Byte :=
  headerMagic ++ lengthPrefixed id ++ lengthPrefixed pw ++ [func] ++ params

/-- Appending the trailer, low byte first (R70, R73). -/
def sealFrame (body : List Byte) : List Byte :=
  body ++ [lowByte (checksumOf body), highByte (checksumOf body)]

/-- A datagram (R66, R73). -/
def frame (id pw : List Byte) (func : FunctionCode) (params : List Byte) : List Byte :=
  sealFrame (frameBody id pw func.code params)

/-- The length of an outbound frame (R79). -/
def frameLength (id pw params : List Byte) : Nat :=
  3 + (1 + id.length) + (1 + pw.length) + 1 + params.length + 2

/-- The password used when none is configured, "1111" (R68; its ASCII bytes, G1). -/
def defaultPassword : List Byte := [0x31#8, 0x31#8, 0x31#8, 0x31#8]

/-- "DEFAULT_DEVICEID" (R74; its ASCII bytes, G1). -/
def searchDeviceId : List Byte :=
  [0x44#8, 0x45#8, 0x46#8, 0x41#8, 0x55#8, 0x4C#8, 0x54#8, 0x5F#8,
   0x44#8, 0x45#8, 0x56#8, 0x49#8, 0x43#8, 0x45#8, 0x49#8, 0x44#8]

/-- The value byte of a power or boost command (R75, R76). -/
def switchByte (on : Bool) : Byte := if on then 1 else 0

/-- The search frame (R74). -/
def searchFrame : List Byte := frame searchDeviceId [] .read [ParamCode.deviceSearch.code]

/-- The power frame (R75). -/
def powerFrame (id pw : List Byte) (on : Bool) : List Byte :=
  frame id pw .writeRead [ParamCode.onOff.code, switchByte on]

/-- The boost frame (R76). -/
def boostFrame (id pw : List Byte) (on : Bool) : List Byte :=
  frame id pw .writeRead [ParamCode.boostMode.code, switchByte on]

/-- The status query (R77), bare codes. -/
def statusFrame (id pw : List Byte) : List Byte :=
  frame id pw .read
    ([ParamCode.onOff, .batteryStatus, .twentyFourHourMode, .fanSpeed, .humidity, .temperature,
      .unitType].map ParamCode.code)

/-- The firmware query (R78). -/
def firmwareFrame (id pw : List Byte) : List Byte :=
  frame id pw .read [ParamCode.readFirmwareVersion.code, ParamCode.unitType.code]

/-- One item of an inbound parameter stream (R72): a code with its payload, or an escape with an
explicit width, a real code and a payload. -/
inductive StreamItem where
  | plain (code : Byte) (payload : List Byte)
  | escaped (real : Byte) (payload : List Byte)
  deriving DecidableEq, Repr

/-- The bytes of an item (R72). -/
def StreamItem.bytes : StreamItem → List Byte
  | .plain code payload => code :: payload
  | .escaped real payload => 0xFE#8 :: BitVec.ofNat 8 payload.length :: real :: payload

/-- The bytes of a stream (R72). -/
def streamBytes : List StreamItem → List Byte
  | [] => []
  | i :: is => i.bytes ++ streamBytes is

end Sys2Proof.Machine
end

