-- ==== Sys2Proof/Machine/Assembler.lean ====
section
/-! DEFINITION. The host assembly of R63 and its pseudo-instructions (R64), as lists of host
operations. -/

namespace Sys2Proof.Machine

/-- A line of host assembly (R63, R64). A string stands as its bytes. -/
inductive AsmLine where
  | write (off : Nat) (value : Word)
  | read (off : Nat) (name : Nat)
  | command (i : Instr)
  | pushHdr
  | pushB (bs : List Byte)
  | pushStr (bs : List Byte)
  | loadF (bs : List Byte)
  | wait (name : Nat)
  deriving DecidableEq, Repr

/-- A command mnemonic: a write of its word to CMD (R63). -/
def commandLine (i : Instr) : HostOp := commandOp (encode i)

/-- One PUSH a byte (R64, PUSHB). -/
def pushAll (bs : List Byte) : List HostOp := bs.map fun b => commandLine (.push b)

/-- The expansion of a line (R63, R64). -/
def AsmLine.expand : AsmLine → List HostOp
  | .write off v => [.write (wordAt off) v]
  | .read off name => [.read (wordAt off) name]
  | .command i => [commandLine i]
  | .pushHdr => pushAll headerMagic
  | .pushB bs => pushAll bs
  | .pushStr bs => pushAll (lengthPrefixed bs)
  | .loadF bs => commandLine .clr :: pushAll bs
  | .wait name => [.wait name]

/-- A program's host operations (R65). -/
def assemble : List AsmLine → List HostOp
  | [] => []
  | l :: ls => l.expand ++ assemble ls

/-- A line the syntax allows: the access exists (R40), and a string has 0 to 255 bytes (R64). -/
def AsmLine.wf : AsmLine → Bool
  | .write off _ => (wordAt off).legal
  | .read off _ => (wordAt off).legal
  | .pushStr bs => decide (bs.length ≤ 255)
  | .command _ | .pushHdr | .pushB _ | .loadF _ | .wait _ => true

/-- The state with a program loaded as the host's operations (log entry 2). -/
def withProgram (ls : List AsmLine) (s : State) : State := { s with hostOps := assemble ls }

end Sys2Proof.Machine
end

