-- ==== Sys2Proof/Machine/HostView.lean ====
section
/-! DEFINITION. How a host reads the snapshot (R116, R117, R135): the firmware strings, the
discovered device id, the identity strings, and a field as reported or not. -/

namespace Sys2Proof.Machine

/-- dec(n): the decimal numeral without leading zeros (R116; from general knowledge, G2). -/
def dec (n : Nat) : List Char := Nat.toDigits 10 n

/-- Byte `j` of a register word, byte 0 lowest (R43). -/
def wordByte (w : Word) (j : Nat) : Byte := w.extractLsb' (8 * j) 8

/-- The firmware version string of FW0 (R116). -/
def firmwareVersion (fw0 : Word) : List Char :=
  dec (wordByte fw0 0).toNat ++ ['.'] ++ dec (wordByte fw0 1).toNat

/-- The firmware date string of FW0 and FW1 (R116). -/
def firmwareDate (fw0 fw1 : Word) : List Char :=
  dec (wordByte fw0 2).toNat ++ ['-'] ++ dec (wordByte fw0 3).toNat ++ ['-'] ++
    dec (fw1.extractLsb' 0 16).toNat

/-- The four bytes of a register word, lowest first. -/
def wordBytes (w : Word) : List Byte := [wordByte w 0, wordByte w 1, wordByte w 2, wordByte w 3]

/-- The discovered device id: the 16 bytes of SID0..SID3 in order (R116). -/
def discoveredId (n : Snapshot) : List Byte :=
  wordBytes n.sid0 ++ wordBytes n.sid1 ++ wordBytes n.sid2 ++ wordBytes n.sid3

/-- A field whose VALID bit is 0 was not reported; its 0 is no value (R117). -/
def reported {α : Type} (n : Snapshot) (bit : Nat) (value : α) : Option α :=
  if n.has bit then some value else none

/-- The bytes of a frame-buffer range. -/
def bytesAt (m : Memory) (off : Nat) : Nat → List Byte
  | 0 => []
  | n + 1 => m.read off :: bytesAt m (off + 1) n

/-- The device id string the identity block names (R31, R32, D37). -/
def deviceIdOf (s : State) : List Byte := bytesAt s.fbuf s.snap.idOff.toNat s.snap.idLen.toNat

/-- The password string the identity block names. -/
def passwordOf (s : State) : List Byte := bytesAt s.fbuf s.snap.pwOff.toNat s.snap.pwLen.toNat

/-- A host may take results only then (R141). -/
def resultsValid (s : State) : Bool := s.done && s.accepted

end Sys2Proof.Machine
end

