-- ==== Sys2Proof/Safety.lean ====
section
/-! DEFINITION. The terms claims are stated in: the invariant of the block (R24 to R28, R31, R32,
R119), a run of Framer steps (R103, R118), the decode as one function of the frame's bytes (R120),
and the encoding and busy clauses every command rule shares (R61, R126). -/

namespace Sys2Proof.Machine

/-- Coherent snapshot (R32, R111): a field whose VALID bit is 0 is 0, and ON_OFF is 0 or 1. -/
structure Snapshot.Coherent (n : Snapshot) : Prop where
  onOff : n.has 0 = false → n.onOff = 0
  battery : n.has 1 = false → n.battery = 0
  temperature : n.has 2 = false → n.temperature = 0
  fanSpeed : n.has 3 = false → n.fanSpeed = 0
  humidity : n.has 4 = false → n.humidity = 0
  firmware : n.has 5 = false →
    n.fwMajor = 0 ∧ n.fwMinor = 0 ∧ n.fwDay = 0 ∧ n.fwMonth = 0 ∧ n.fwYear = 0
  unitType : n.has 6 = false → n.unitType = 0
  searchId : n.has 7 = false → n.sid0 = 0 ∧ n.sid1 = 0 ∧ n.sid2 = 0 ∧ n.sid3 = 0
  ident : n.has 8 = false →
    n.idOff = 0 ∧ n.idLen = 0 ∧ n.pwOff = 0 ∧ n.pwLen = 0
  onOffBool : n.onOff = 0 ∨ n.onOff = 1

/-- The decode error codes a rejection may record (R24). -/
def ErrorCode.decodeLegal : ErrorCode → Bool
  | .none | .headerInvalid | .checksumMismatch | .unexpectedFunction | .unknownParameter
  | .truncatedBuffer => true
  | .encodingOverflow | .illegalCommand | .busyViolation => false

/-- The codes a command error may record (R24). -/
def ErrorCode.commandLegal : ErrorCode → Bool
  | .none | .truncatedBuffer | .encodingOverflow | .illegalCommand | .busyViolation => true
  | .headerInvalid | .checksumMismatch | .unexpectedFunction | .unknownParameter => false

/-- The states in which PEND is fixed and fields are read (R119: from IDN on). -/
def FramerState.readsFields : FramerState → Bool
  | .idn | .fn | .par => true
  | .idle | .hdr | .cks | .accept | .reject => false

/-- The states of a running decode whose header has been read. -/
def FramerState.headerRead : FramerState → Bool
  | .cks | .idn | .fn | .par => true
  | .idle | .hdr | .accept | .reject => false

/-- The states in which the identity block has been read. -/
def FramerState.identRead : FramerState → Bool
  | .fn | .par => true
  | .idle | .hdr | .cks | .idn | .accept | .reject => false

/-- FBUF[0..2] is the magic of R67. -/
def headerAt (m : Memory) : Prop := m.read 0 = 0xFD ∧ m.read 1 = 0xFD ∧ m.read 2 = 0x02

/-- The invariant of the block. It holds at reset and every step of either agent keeps it. -/
structure Inv (s : State) : Prop where
  fbufForm : s.fbuf.wf = true
  lenBound : s.len.toNat ≤ 200
  cursorBound : s.cursor.toNat ≤ 200
  cursorStart : s.fsm = .hdr → s.cursor = 0
  cursorAfterHeader : s.fsm = .cks ∨ s.fsm = .idn → s.cursor = 3
  header : s.fsm.headerRead = true → 3 ≤ s.len.toNat ∧ headerAt s.fbuf
  pendFixed : s.fsm.readsFields = true →
    s.pend.toNat + 2 = s.len.toNat ∧ s.cursor.toNat ≤ s.pend.toNat
  doneIff : s.done = true ↔ s.fsm = .accept ∨ s.fsm = .reject
  acceptedIff : s.accepted = true ↔ s.fsm = .accept
  derrIff : s.derr ≠ .none ↔ s.fsm = .reject
  derrLegal : s.derr.decodeLegal = true
  cerrLegal : s.cerr.commandLegal = true
  cmderrIff : s.cmderr = true ↔ s.cerr ≠ .none
  snapCleared : s.fsm ≠ .accept → s.snap = Snapshot.zero
  shadowCoherent : s.shadow.Coherent
  snapCoherent : s.snap.Coherent
  shadowIdent : s.fsm.identRead = true →
    s.shadow.has 8 = true ∧ s.shadow.idOff = 4
  snapIdent : s.fsm = .accept → s.snap.has 8 = true ∧ s.snap.idOff = 4

/-- At most `k` Framer steps, while BUSY = 1. -/
def framerRun : Nat → State → State
  | 0, s => s
  | k + 1, s => if s.busy then framerRun k (framerStep s) else s

/-- The result of a decode (R120). -/
inductive DecodeResult where
  | accepted (n : Snapshot)
  | rejected (code : ErrorCode) (pos : Nat)
  deriving DecidableEq, Repr

/-- The result a finished decode left in the registers. -/
def decodeResult (s : State) : Option DecodeResult :=
  match s.fsm with
  | .accept => some (.accepted s.snap)
  | .reject => some (.rejected s.derr s.cursor.toNat)
  | .idle | .hdr | .cks | .idn | .fn | .par => none

/-- The parameter stream read off its bytes (R72, R108), `pos` being the offset of the first.
A stream of `n` bytes has at most `n` items; fuel past that is never used. -/
def parseParams : Nat → Nat → List Byte → Snapshot → DecodeResult
  | _, _, [], n => .accepted n
  | 0, pos, _ :: _, _ => .rejected .none pos
  | k + 1, pos, code :: rest, n =>
    if code = escapeCode then
      match rest with
      | [] => .rejected .truncatedBuffer (pos + 1)
      | [_] => .rejected .truncatedBuffer (pos + 2)
      | w :: real :: rest =>
        if w.toNat > rest.length then .rejected .truncatedBuffer (pos + 3)
        else
          parseParams k (pos + 3 + w.toNat) (rest.drop w.toNat)
            (semantic real w.toNat (fun i => rest.getD i 0) n)
    else
      match catalog code with
      | none => .rejected .unknownParameter pos
      | some w =>
        if w.toNat > rest.length then .rejected .truncatedBuffer (pos + 1)
        else
          parseParams k (pos + 1 + w.toNat) (rest.drop w.toNat)
            (semantic code w.toNat (fun i => rest.getD i 0) n)

/-- The function byte and what follows it (R107). -/
def parseFunction (pos : Nat) (bs : List Byte) (n : Snapshot) : DecodeResult :=
  match bs with
  | [] => .rejected .truncatedBuffer pos
  | f :: rest =>
    if f ≠ FunctionCode.response.code then .rejected .unexpectedFunction pos
    else parseParams rest.length (pos + 1) rest n

/-- A length-prefixed string (R68) at the head of the bytes: its length and the bytes after it,
or the offset of the read that does not fit. -/
def parseString (pos : Nat) (bs : List Byte) : Except Nat (Nat × List Byte) :=
  match bs with
  | [] => .error pos
  | n :: rest => if n.toNat > rest.length then .error (pos + 1) else .ok (n.toNat, rest.drop n.toNat)

/-- The identity block and what follows it (R106). -/
def parseIdentity (pos : Nat) (bs : List Byte) : DecodeResult :=
  match parseString pos bs with
  | .error p => .rejected .truncatedBuffer p
  | .ok (n, rest) =>
    match parseString (pos + 1 + n) rest with
    | .error p => .rejected .truncatedBuffer p
    | .ok (m, rest) =>
      parseFunction (pos + 2 + n + m) rest
        (storeIdent (pos + 1) n (pos + 2 + n) m Snapshot.zero)

/-- The decode as a function of the frame's bytes (R120): the checks in the order HDR, CKS, IDN,
FUN, PAR, the first that fails giving the result. -/
def parseFrame (bs : List Byte) : DecodeResult :=
  if bs.length < 3 then .rejected .truncatedBuffer 0
  else if bs.take 3 ≠ headerMagic then .rejected .headerInvalid 0
  else if bs.length < 4 then .rejected .truncatedBuffer 0
  else
    let body := bs.take (bs.length - 2)
    if checksumOf body ≠ le16 (bs.getD (bs.length - 2) 0) (bs.getD (bs.length - 1) 0) then
      .rejected .checksumMismatch 0
    else parseIdentity 3 (body.drop 3)

/-- A stream item the framer can read (R72): a plain code has its catalog width, an escape a width
its one byte can give. -/
def StreamItem.legal : StreamItem → Prop
  | .plain code payload => code ≠ escapeCode ∧ ∃ w, catalog code = some w ∧ w.toNat = payload.length
  | .escaped _ payload => payload.length ≤ 255

/-- The code an item's payload is decoded under: an escape's real code (R108). -/
def StreamItem.code : StreamItem → Byte
  | .plain code _ => code
  | .escaped real _ => real

/-- The payload of an item. -/
def StreamItem.payload : StreamItem → List Byte
  | .plain _ payload => payload
  | .escaped _ payload => payload

/-- The item is decoded as attribute `a`: a code of R111 at its semantic width (R112). -/
def StreamItem.decodes (i : StreamItem) (a : Attr) : Prop :=
  attrOfCode i.code = some a ∧ i.payload.length = semanticWidth a

/-- What a stream leaves in a snapshot, its items in order (R112, R114). -/
def foldStream : List StreamItem → Snapshot → Snapshot
  | [], n => n
  | .plain code payload :: is, n =>
    foldStream is (semantic code payload.length (fun i => payload.getD i 0) n)
  | .escaped real payload :: is, n =>
    foldStream is (semantic real payload.length (fun i => payload.getD i 0) n)

/-- The snapshot of a response with identity strings `id` and `pw` and the stream `items`. -/
def responseSnapshot (id pw : List Byte) (items : List StreamItem) : Snapshot :=
  foldStream items (storeIdent 4 id.length (5 + id.length) pw.length Snapshot.zero)

/-- The illegal encodings of one opcode (R61): a nonzero RSV, or a nonzero operand field the
command does not use, is an ILLEGAL_COMMAND command error in every state. -/
def IllegalOtherwise (op : Byte) (usesA usesB : Bool) : Prop :=
  ∀ (w : Word) (s : State), opField w = op →
    rsvField w ≠ 0 ∨ (usesA = false ∧ aField w ≠ 0) ∨ (usesB = false ∧ bField w ≠ 0) →
      runCommand w s = .next { s with cmderr := true, cerr := .illegalCommand }

/-- A command refused while BUSY = 1, with no other effect (R122, R126). -/
def RefusedWhileBusy (i : Instr) : Prop :=
  ∀ s : State, s.busy = true →
    exec i s = .next { s with cmderr := true, cerr := .busyViolation }

/-- A command that runs while BUSY = 0 and fails its own check, with no other effect (R122). -/
def FailsWith (i : Instr) (s : State) (code : ErrorCode) : Prop :=
  exec i s = .next { s with cmderr := true, cerr := code }

end Sys2Proof.Machine
end

