-- ==== Sys2Proof/Certificates/Slice0/Obligations.lean ====
section
/-! DEFINITION. The statements for the provers. Each docstring names the rule of spec/ it
formalises, or says that it is derived. -/

open Sys2Proof Sys2Proof.Machine

/-! ## Encoding -/

/-- Derived (R58 to R60): every command, at every value of its operands, decodes from its word. -/
def Obligations.DecodeOfEncode : Prop := ∀ i : Instr, decode (encode i) = .ok i

/-- Derived (R58 to R61): a word that decodes is the word of the command it decodes to, so each
command has one word. -/
def Obligations.EncodeOfDecode : Prop := ∀ (w : Word) (i : Instr), decode w = .ok i → encode i = w

/-- R61: the illegal encodings are OP in 0x0D..0xFF, RSV != 0 and a nonzero operand field the
command does not use; the decoder refuses exactly these, they are exactly the words no table row
fits, and each is an ILLEGAL_COMMAND command error with no other effect. -/
def Obligations.IllegalEncodings : Prop :=
  (∀ w : Word, legalWord w = false ↔
    0x0C < (opField w).toNat ∨ rsvField w ≠ 0 ∨
    ((opField w).toNat ∉ [0x02, 0x03, 0x04, 0x0B] ∧ aField w ≠ 0) ∨
    ((opField w).toNat ∉ [0x02, 0x05, 0x07] ∧ bField w ≠ 0)) ∧
  (∀ w : Word, legalWord w = false ↔ ∃ e, decode w = .error e) ∧
  (∀ (w : Word) (s : State), legalWord w = false →
    runCommand w s = .next { s with cmderr := true, cerr := .illegalCommand })

/-- Derived (R60; spec 95, 2.1 to 2.3): words written out from the encoding of R58 decode to the
commands they stand for. A sanity statement. -/
def Obligations.WrittenOutWordsDecode : Prop :=
  decode 0x00000000#32 = .ok .nop ∧ decode 0x0200C701#32 = .ok (.wrb 199 1) ∧
  decode 0x04000A00#32 = .ok (.setlen 10) ∧ decode 0x050000FD#32 = .ok (.push 0xFD) ∧
  decode 0x07000002#32 = .ok (.ckadd 2) ∧ decode 0x0B007C00#32 = .ok (.lookup 0x7C) ∧
  decode 0x0C000000#32 = .ok .decode

/-! ## The step -/

/-- Derived (R23, R39, R46, R131): when the host's next operation is the write of a command's word
to CMD and the host moves, the step is the command's `exec` at the state in which that operation
has been taken; and the word placed by `withFetchWord` is the one the very next step runs. Who moves
is the model's own scheduling (log entries 1 and 2). -/
def Obligations.StepRunsTheCommand : Prop :=
  (∀ (s : State) (w : Word) (i : Instr) (ops : List HostOp), decode w = .ok i →
    s.busy = false → s.hostOps = commandOp w :: ops →
      step s = exec i { s with hostOps := ops }) ∧
  (∀ (s : State) (w : Word) (i : Instr) (ops : List HostOp) (k : Nat), decode w = .ok i →
    s.busy = true → s.hostOps = commandOp w :: ops → s.hostTurns = k + 1 →
      step s = exec i { s with hostOps := ops, hostTurns := k }) ∧
  (∀ (s : State) (w : Word) (i : Instr), decode w = .ok i →
    step (s.withFetchWord 32 w.toNat) = exec i s)

/-- Derived (R38): a host read returns the register's value, 0 at an unmapped offset, and changes no state of
the block, with BUSY = 0 and with BUSY = 1. That the value is noted on the host's side (log entry 11)
and that the access uses up one of the host's turns while BUSY = 1 (log entry 1) is the model's
choice. -/
def Obligations.HostReadHasNoSideEffect : Prop :=
  (∀ (s : State) (off name : Nat) (ops : List HostOp), off % 4 = 0 → off ≤ 0xFC →
    s.busy = false → s.hostOps = .read (wordAt off) name :: ops →
      step s = .next { s with
        hostOps := ops, hostReads := s.hostReads ++ [⟨name, readAt off s⟩] }) ∧
  (∀ (s : State) (off name k : Nat) (ops : List HostOp), off % 4 = 0 → off ≤ 0xFC →
    s.busy = true → s.hostOps = .read (wordAt off) name :: ops → s.hostTurns = k + 1 →
      step s = .next { s with
        hostOps := ops, hostTurns := k, hostReads := s.hostReads ++ [⟨name, readAt off s⟩] }) ∧
  (∀ (r : Reg) (s : State), readAt (regOffset r) s = readReg r s) ∧
  (∀ (off : Nat) (s : State), (∀ r, regOffset r ≠ off) → readAt off s = 0)

/-- R39: a write to CMD executes a command; a write to any other offset, mapped or not, has no
effect and raises no error. -/
def Obligations.HostWriteRule : Prop :=
  (∀ (s : State) (w : Word), hostAccess (.write (wordAt 0x04) w) s = runCommand w s) ∧
  (∀ (s : State) (off : Nat) (w : Word), off % 4 = 0 → off ≤ 0xFC → off ≠ 0x04 →
    hostAccess (.write (wordAt off) w) s = .next s)

/-- R40: an access that is not a 32-bit access at a multiple of 4 in 0x00..0xFC is refused. -/
def Obligations.IllegalAccessRefused : Prop :=
  ∀ (acc : Access) (v : Word) (name : Nat) (s : State),
    acc.bytes ≠ 4 ∨ acc.off % 4 ≠ 0 ∨ 0xFC < acc.off →
      hostAccess (.write acc v) s = .refused .hostAccess ∧
      hostAccess (.read acc name) s = .refused .hostAccess

/-- Derived (R64, R65): WAIT reads STATUS; with DONE = 1 the host goes on, with DONE = 0 it stays on
the WAIT. That each poll's value is noted is the model's choice (log entry 11). -/
def Obligations.WaitPollsDone : Prop :=
  (∀ (name : Nat) (s : State), s.done = true →
    hostAccess (.wait name) s = .next { s with
      hostReads := s.hostReads ++ [⟨name, readReg .status s⟩] }) ∧
  (∀ (name : Nat) (s : State), s.done = false →
    hostAccess (.wait name) s = .next { s with
      hostOps := .wait name :: s.hostOps
      hostReads := s.hostReads ++ [⟨name, readReg .status s⟩] })

/-- Derived (R103, R131, R137; the model's scheduling, log entries 1 and 3): with no host operation
or no host access left the Framer steps while BUSY = 1; otherwise the host makes its next access;
and with no operation left while BUSY = 0 nothing can step. -/
def Obligations.FramerStepsOnlyWhileBusy : Prop :=
  (∀ s : State, s.hostOps = [] ∨ s.hostTurns = 0 → s.busy = true →
    step s = .next (framerTurn s)) ∧
  (∀ (s : State) (op : HostOp) (ops : List HostOp), s.hostOps = op :: ops → s.busy = false →
    step s = hostAccess op { s with hostOps := ops }) ∧
  (∀ (s : State) (op : HostOp) (ops : List HostOp) (k : Nat), s.hostOps = op :: ops →
    s.busy = true → s.hostTurns = k + 1 →
      step s = hostAccess op { s with hostOps := ops, hostTurns := k }) ∧
  (∀ s : State, s.hostOps = [] → s.busy = false → step s = .fault .noEnabledStep)

/-- Derived (R103 weak fairness; the model's scheduling, log entry 1): while BUSY = 1 the Framer's
step comes after at most `hostTurns` host accesses, unless one of them ends the decode (CLR) or
does not exist (R40). -/
def Obligations.FramerStepIsFair : Prop :=
  ∀ s : State, s.busy = true → ∃ k u, k ≤ s.hostTurns ∧ Host.Core.run core k s = .next u ∧
    (u.busy = false ∨ step u = .next (framerTurn u) ∨ step u = .refused .hostAccess)

/-! ## Reset and the invariant -/

/-- R136: every register's value after power-on reset, the internal state 0, and FBUF holding
FBUF_INIT. -/
def Obligations.ResetValues : Prop :=
  readReg .blkid State.reset = 0xC5160100#32 ∧
  (∀ r : Reg, r ≠ .blkid → readReg r State.reset = 0) ∧
  State.reset.fsm = .idle ∧ State.reset.busy = false ∧
  State.reset.shadow = Snapshot.zero ∧ State.reset.pend = 0 ∧
  (∀ a, a < 200 → State.reset.fbuf.read a = Config.fbufInit a)

/-- Derived (R24 to R28, R119, R136): the reset state meets the invariant. -/
def Obligations.ResetMeetsInvariant : Prop := Inv State.reset

/-- Derived (R24 to R28, R31, R32, R119): every step of either agent keeps the invariant. -/
def Obligations.StepKeepsInvariant : Prop := ∀ s t : State, Inv s → step s = .next t → Inv t

/-- R138: CLR gives the register values of power-on reset and keeps FBUF (and the host's side). -/
def Obligations.ClrIsResetButForFbuf : Prop :=
  ∀ s : State, exec .clr s = .next { State.reset with
    fbuf := s.fbuf, hostOps := s.hostOps, hostReads := s.hostReads, hostTurns := s.hostTurns,
    draws := s.draws }

/-! ## Commands -/

/-- R96: NOP. -/
def Obligations.NopRule : Prop :=
  encode .nop = 0x00000000#32 ∧ IllegalOtherwise 0x00 false false ∧
  (∀ s : State, exec .nop s = .next s)

/-- R97: CLR, also while BUSY = 1; and no other command clears CMDERR. -/
def Obligations.ClrRule : Prop :=
  encode .clr = 0x01000000#32 ∧ IllegalOtherwise 0x01 false false ∧
  (∀ s : State, exec .clr s = .next { s with
    fsm := .idle, pend := 0, len := 0, cursor := 0, acc := 0, rdata := 0, lkup := ⟨.notFound, 0⟩,
    done := false, accepted := false, ckok := false, cmderr := false, derr := .none, cerr := .none,
    snap := Snapshot.zero, shadow := Snapshot.zero }) ∧
  (∀ s t : State, exec .clr s = .next t → readReg .status t = 0) ∧
  (∀ (i : Instr) (s t : State), exec i s = .next t → s.cmderr = true → t.cmderr = false → i = .clr)

/-- R98: WRB stores B at A and changes nothing else; an address past 199 is
ENCODING_OVERFLOW. -/
def Obligations.WrbRule : Prop :=
  (∀ a b : Byte, encode (.wrb a b) = 0x02#8 ++ 0#8 ++ a ++ b) ∧ IllegalOtherwise 0x02 true true ∧
  (∀ a b : Byte, RefusedWhileBusy (.wrb a b)) ∧
  (∀ (a b : Byte) (s : State), s.busy = false → 200 ≤ a.toNat →
    FailsWith (.wrb a b) s .encodingOverflow) ∧
  (∀ (a b : Byte) (s : State), s.busy = false → a.toNat < 200 →
    ∃ m, exec (.wrb a b) s = .next { s with fbuf := m } ∧ m.read a.toNat = b ∧
      ∀ c, c ≠ a.toNat → m.read c = s.fbuf.read c)

/-- R99: RDB copies FBUF[A] to RDATA and changes nothing else; an address past 199 is
TRUNCATED_BUFFER. -/
def Obligations.RdbRule : Prop :=
  (∀ a : Byte, encode (.rdb a) = 0x03#8 ++ 0#8 ++ a ++ 0#8) ∧ IllegalOtherwise 0x03 true false ∧
  (∀ a : Byte, RefusedWhileBusy (.rdb a)) ∧
  (∀ (a : Byte) (s : State), s.busy = false → 200 ≤ a.toNat →
    FailsWith (.rdb a) s .truncatedBuffer) ∧
  (∀ (a : Byte) (s : State), s.busy = false → a.toNat < 200 →
    exec (.rdb a) s = .next { s with rdata := s.fbuf.read a.toNat })

/-- R100: SETLEN writes LEN and changes nothing else; a length past 200 is
ENCODING_OVERFLOW. -/
def Obligations.SetlenRule : Prop :=
  (∀ a : Byte, encode (.setlen a) = 0x04#8 ++ 0#8 ++ a ++ 0#8) ∧ IllegalOtherwise 0x04 true false ∧
  (∀ a : Byte, RefusedWhileBusy (.setlen a)) ∧
  (∀ (a : Byte) (s : State), s.busy = false → 200 < a.toNat →
    FailsWith (.setlen a) s .encodingOverflow) ∧
  (∀ (a : Byte) (s : State), s.busy = false → a.toNat ≤ 200 →
    exec (.setlen a) s = .next { s with len := a })

/-- R101: PUSH stores B at LEN, adds 1 to LEN and changes nothing else; at LEN = 200 it is
ENCODING_OVERFLOW. -/
def Obligations.PushRule : Prop :=
  (∀ b : Byte, encode (.push b) = 0x05#8 ++ 0#8 ++ 0#8 ++ b) ∧ IllegalOtherwise 0x05 false true ∧
  (∀ b : Byte, RefusedWhileBusy (.push b)) ∧
  (∀ (b : Byte) (s : State), s.busy = false → s.len = 200 →
    FailsWith (.push b) s .encodingOverflow) ∧
  (∀ (b : Byte) (s : State), s.busy = false → s.len.toNat < 200 →
    ∃ m n, exec (.push b) s = .next { s with fbuf := m, len := n } ∧
      n.toNat = s.len.toNat + 1 ∧ m.read s.len.toNat = b ∧
      ∀ c, c ≠ s.len.toNat → m.read c = s.fbuf.read c)

/-- R91: CKCLR. -/
def Obligations.CkclrRule : Prop :=
  encode .ckclr = 0x06000000#32 ∧ IllegalOtherwise 0x06 false false ∧ RefusedWhileBusy .ckclr ∧
  (∀ s : State, s.busy = false → exec .ckclr s = .next { s with acc := 0 })

/-- R92: CKADD adds its byte to ACC modulo 65536 and changes nothing else. -/
def Obligations.CkaddRule : Prop :=
  (∀ b : Byte, encode (.ckadd b) = 0x07#8 ++ 0#8 ++ 0#8 ++ b) ∧ IllegalOtherwise 0x07 false true ∧
  (∀ b : Byte, RefusedWhileBusy (.ckadd b)) ∧
  (∀ (b : Byte) (s : State), s.busy = false →
    ∃ h, exec (.ckadd b) s = .next { s with acc := h } ∧
      h.toNat = (s.acc.toNat + b.toNat) % 65536)

/-- R93: CKSUM leaves sum16(2, LEN) in ACC, 0 for LEN <= 2, and changes nothing else. -/
def Obligations.CksumRule : Prop :=
  encode .cksum = 0x08000000#32 ∧ IllegalOtherwise 0x08 false false ∧ RefusedWhileBusy .cksum ∧
  (∀ s : State, s.busy = false →
    exec .cksum s = .next { s with acc := sum16 s.fbuf 2 s.len.toNat }) ∧
  (∀ s : State, s.busy = false → s.len.toNat ≤ 2 → exec .cksum s = .next { s with acc := 0 })

/-- R94: VERIFY writes ACC and CKOK alone, compares the sum with the little-endian trailer, and is
TRUNCATED_BUFFER on a frame shorter than 4 bytes. -/
def Obligations.VerifyRule : Prop :=
  encode .verify = 0x09000000#32 ∧ IllegalOtherwise 0x09 false false ∧ RefusedWhileBusy .verify ∧
  (∀ s : State, s.busy = false → s.len.toNat < 4 → FailsWith .verify s .truncatedBuffer) ∧
  (∀ s : State, s.busy = false → 4 ≤ s.len.toNat →
    ∃ h ok, exec .verify s = .next { s with acc := h, ckok := ok } ∧
      h = sum16 s.fbuf 2 (s.len.toNat - 2) ∧
      (ok = true ↔ h.toNat = (s.fbuf.read (s.len.toNat - 2)).toNat +
        256 * (s.fbuf.read (s.len.toNat - 1)).toNat)) ∧
  (∀ s : State, s.busy = false → s.len = 4 →
    ∃ ok, exec .verify s = .next { s with acc := 0, ckok := ok } ∧
      (ok = true ↔ s.fbuf.read 2 = 0 ∧ s.fbuf.read 3 = 0))

/-- R95: SEAL appends sum16(2, LEN), low byte first, sets ACC, adds 2 to LEN and changes nothing
else; with LEN > 198 it is ENCODING_OVERFLOW and nothing is written. -/
def Obligations.SealRule : Prop :=
  encode .sealOp = 0x0A000000#32 ∧ IllegalOtherwise 0x0A false false ∧ RefusedWhileBusy .sealOp ∧
  (∀ s : State, s.busy = false → 198 < s.len.toNat → FailsWith .sealOp s .encodingOverflow) ∧
  (∀ s : State, s.busy = false → s.len.toNat ≤ 198 →
    ∃ m n h, exec .sealOp s = .next { s with fbuf := m, acc := h, len := n } ∧
      h = sum16 s.fbuf 2 s.len.toNat ∧ n.toNat = s.len.toNat + 2 ∧
      (m.read s.len.toNat).toNat = h.toNat % 256 ∧
      (m.read (s.len.toNat + 1)).toNat = h.toNat / 256 ∧
      ∀ c, c ≠ s.len.toNat → c ≠ s.len.toNat + 1 → m.read c = s.fbuf.read c) ∧
  (∀ s : State, s.busy = false → s.len.toNat < 2 → ∃ t, exec .sealOp s = .next t ∧
    t.fbuf.read s.len.toNat = 0 ∧ t.fbuf.read (s.len.toNat + 1) = 0) ∧
  (∀ s : State, s.busy = false → 2 ≤ s.len.toNat → s.len.toNat ≤ 198 →
    ∃ t u, exec .sealOp s = .next t ∧ exec .verify t = .next u ∧ u.ckok = true)

/-- R86: LOOKUP reports the ROM's entry in LKUP and changes nothing else; 0xFE is ESCAPE whatever
the ROM holds. -/
def Obligations.LookupRule : Prop :=
  (∀ a : Byte, encode (.lookup a) = 0x0B#8 ++ 0#8 ++ a ++ 0#8) ∧ IllegalOtherwise 0x0B true false ∧
  (∀ a : Byte, RefusedWhileBusy (.lookup a)) ∧
  (∀ s : State, s.busy = false →
    exec (.lookup 0xFE) s = .next { s with lkup := ⟨.escape, 0⟩ }) ∧
  (∀ (a : Byte) (s : State), s.busy = false → a ≠ 0xFE → catalog a = none →
    exec (.lookup a) s = .next { s with lkup := ⟨.notFound, 0⟩ }) ∧
  (∀ (a w : Byte) (s : State), s.busy = false → a ≠ 0xFE → catalog a = some w →
    exec (.lookup a) s = .next { s with lkup := ⟨.fixed, w⟩ }) ∧
  (∀ s : State, s.busy = false → ∃ t, exec (.lookup 0x04) s = .next t ∧
    readReg .lkup t = 0x00000102#32) ∧
  (∀ s : State, s.busy = false → ∃ t, exec (.lookup 0xFE) s = .next t ∧
    readReg .lkup t = 0x00000200#32)

/-- R102: DECODE clears the snapshots and the outcome, and starts the framer at HDR. -/
def Obligations.DecodeRule : Prop :=
  encode .decode = 0x0C000000#32 ∧ IllegalOtherwise 0x0C false false ∧ RefusedWhileBusy .decode ∧
  (∀ s : State, s.busy = false → exec .decode s = .next { s with
    snap := Snapshot.zero, shadow := Snapshot.zero, done := false, accepted := false,
    derr := .none, cursor := 0, fsm := .hdr }) ∧
  (∀ s t : State, s.busy = false → exec .decode s = .next t → t.busy = true)

/-- R126: while BUSY = 1 every legal command but NOP and CLR is refused with BUSY_VIOLATION and no
other effect, so FBUF, LEN and ACC change only by the Framer's own writes. -/
def Obligations.BusyRefusal : Prop :=
  (∀ (i : Instr) (s : State), s.busy = true → i ≠ .nop → i ≠ .clr →
    exec i s = .next { s with cmderr := true, cerr := .busyViolation }) ∧
  (∀ s : State, s.busy = true → exec .nop s = .next s) ∧
  (∀ s : State, s.busy = true → ∃ t, exec .clr s = .next t ∧ t.busy = false) ∧
  (∀ s t : State, s.busy = true → step s = .next t → t.busy = true →
    t.fbuf = s.fbuf ∧ t.len = s.len ∧ (t.acc = s.acc ∨ t = framerTurn s))

/-- Derived (R97 "CLR clears a sticky CMDERR, and is the only command that does", R128): only the
write of CLR's word to CMD clears CMDERR, and nothing else lowers it. -/
def Obligations.OnlyClrClearsCmderr : Prop :=
  ∀ s t : State, step s = .next t → s.cmderr = true → t.cmderr = false →
    ∃ ops, s.hostOps = .write (wordAt 0x04) 0x01000000#32 :: ops

/-- Derived (R35, R39, R126): FBUF is written by WRB, PUSH and SEAL alone, by the host's write of
their word to CMD, and only while BUSY = 0. -/
def Obligations.FbufWrittenOnlyByStores : Prop :=
  ∀ s t : State, step s = .next t → t.fbuf ≠ s.fbuf →
    s.busy = false ∧ ∃ w i ops, s.hostOps = .write (wordAt 0x04) w :: ops ∧ decode w = .ok i ∧
      ((∃ a b, i = .wrb a b) ∨ (∃ b, i = .push b) ∨ i = .sealOp)

/-- Derived (R32, R97, R102, R109): a step that changes the committed snapshot is the Framer's step
from PAR to ACCEPT, which copies the shadow, or the host's write to CMD of CLR's word or, while
BUSY = 0, of DECODE's word, which clear it. -/
def Obligations.SnapshotCommittedOnlyByAccept : Prop :=
  ∀ s t : State, step s = .next t → t.snap ≠ s.snap →
    (s.fsm = .par ∧ t = framerTurn s ∧ t.fsm = .accept ∧ t.snap = s.shadow) ∨
    (t.snap = Snapshot.zero ∧ t.fsm = .idle ∧
      ∃ ops, s.hostOps = .write (wordAt 0x04) 0x01000000#32 :: ops) ∨
    (t.snap = Snapshot.zero ∧ t.fsm = .hdr ∧ s.busy = false ∧
      ∃ ops, s.hostOps = .write (wordAt 0x04) 0x0C000000#32 :: ops)

/-! ## The checksum -/

/-- R14: sum16(a, b) is the sum of FBUF[a] to FBUF[b-1] modulo 65536, 0 when a >= b. -/
def Obligations.Sum16IsTheSum : Prop :=
  (∀ (m : Memory) (a b : Nat), a ≤ b →
    (sum16 m a b).toNat = ((List.range (b - a)).map fun i => (m.read (a + i)).toNat).sum % 65536) ∧
  (∀ (m : Memory) (a b : Nat), b ≤ a → sum16 m a b = 0)

/-- Derived (R89): within a frame of at most 200 bytes the sum never wraps. -/
def Obligations.FrameSumNeverWraps : Prop :=
  ∀ (m : Memory) (b : Nat), b ≤ 200 →
    (sum16 m 2 b).toNat = ((List.range (b - 2)).map fun i => (m.read (2 + i)).toNat).sum ∧
    (sum16 m 2 b).toNat ≤ 50490

/-- Derived (R90): changing one byte of FBUF[2 .. LEN) of a sealed frame makes VERIFY report a
mismatch. -/
def Obligations.OneByteChangeDetected : Prop :=
  ∀ (s : State) (a b : Byte), s.busy = false → 4 ≤ s.len.toNat → s.len.toNat ≤ 200 →
    sum16 s.fbuf 2 (s.len.toNat - 2) = trailer s.fbuf s.len.toNat →
    2 ≤ a.toNat → a.toNat < s.len.toNat → b ≠ s.fbuf.read a.toNat →
      ∃ t u, exec (.wrb a b) s = .next t ∧ exec .verify t = .next u ∧ u.ckok = false

/-! ## The catalog -/

/-- R81: the entries every CATALOG has. -/
def Obligations.CatalogFixedEntries : Prop :=
  catalog 0x01 = some 1 ∧ catalog 0x02 = some 1 ∧ catalog 0x04 = some 2 ∧ catalog 0x2E = some 1 ∧
  catalog 0x31 = some 1 ∧ catalog 0x7C = some 16 ∧ catalog 0x86 = some 6 ∧
  catalog 0xB9 = some unitTypeWidth ∧ (unitTypeWidth = 1 ∨ unitTypeWidth = 2)

/-- Derived (R82; that the two codes are none of R81's and not 0xFE is log entry 7): the wifi
parameters have catalog width 0. -/
def Obligations.WifiWidthsAreZero : Prop :=
  catalog wifiName = some 0 ∧ catalog wifiPassword = some 0 ∧
  wifiName ≠ escapeCode ∧ wifiPassword ≠ escapeCode

/-! ## The framer -/

/-- R104: HDR. -/
def Obligations.HdrRule : Prop :=
  (∀ s : State, s.fsm = .hdr → s.len.toNat < 3 → framerStep s = reject .truncatedBuffer 0 s) ∧
  (∀ s : State, s.fsm = .hdr → 3 ≤ s.len.toNat → ¬ headerAt s.fbuf →
    framerStep s = reject .headerInvalid 0 s) ∧
  (∀ s : State, s.fsm = .hdr → 3 ≤ s.len.toNat → headerAt s.fbuf →
    framerStep s = { s with cursor := 3, fsm := .cks })

/-- R105: CKS. ACC is written even on a mismatch, and every 4-byte frame that passed HDR is
rejected here. -/
def Obligations.CksRule : Prop :=
  (∀ s : State, s.fsm = .cks → s.len.toNat < 4 → framerStep s = reject .truncatedBuffer 0 s) ∧
  (∀ s : State, s.fsm = .cks → 4 ≤ s.len.toNat →
    sum16 s.fbuf 2 (s.len.toNat - 2) ≠ trailer s.fbuf s.len.toNat →
      framerStep s = reject .checksumMismatch 0
        { s with acc := sum16 s.fbuf 2 (s.len.toNat - 2) }) ∧
  (∀ s : State, s.fsm = .cks → 4 ≤ s.len.toNat →
    sum16 s.fbuf 2 (s.len.toNat - 2) = trailer s.fbuf s.len.toNat →
      ∃ p, framerStep s = { s with
        acc := sum16 s.fbuf 2 (s.len.toNat - 2), pend := p, fsm := .idn } ∧
        p.toNat = s.len.toNat - 2) ∧
  (∀ s : State, s.fsm = .cks → s.len = 4 → headerAt s.fbuf →
    framerStep s = reject .checksumMismatch 0 { s with acc := 0 })

/-- R106: IDN. Each of the four reads that passes PEND is TRUNCATED_BUFFER at its offset; else the
identity block's offsets and lengths go to the shadow. `c` is CURSOR, which is 3, so ID_OFF is 4;
`n` and `m` are the two length bytes. -/
def Obligations.IdnRule : Prop :=
  (∀ (s : State) (c p n m : Nat), s.fsm = .idn → c = s.cursor.toNat → p = s.pend.toNat →
    n = (s.fbuf.read c).toNat → m = (s.fbuf.read (c + 1 + n)).toNat →
    (p ≤ c → framerStep s = reject .truncatedBuffer c s) ∧
    (c < p → p < c + 1 + n → framerStep s = reject .truncatedBuffer (c + 1) s) ∧
    (c < p → p = c + 1 + n → framerStep s = reject .truncatedBuffer (c + 1 + n) s) ∧
    (c + 1 + n < p → p < c + 2 + n + m →
      framerStep s = reject .truncatedBuffer (c + 2 + n) s) ∧
    (c + 2 + n + m ≤ p → ∃ x cur, framerStep s = { s with
        shadow := x, cursor := cur, fsm := .fn } ∧ cur.toNat = c + 2 + n + m ∧
      x = { s.shadow with
        idOff := BitVec.ofNat 8 (c + 1), idLen := BitVec.ofNat 8 n,
        pwOff := BitVec.ofNat 8 (c + 2 + n), pwLen := BitVec.ofNat 8 m,
        valid := s.shadow.valid ||| BitVec.twoPow 9 8 })) ∧
  (∀ s : State, Inv s → s.fsm = .idn → s.cursor = 3 ∧
    ((framerStep s).fsm = .fn → (framerStep s).shadow.idOff = 4))

/-- R107: FUN. Every function code but RESPONSE is rejected. -/
def Obligations.FunRule : Prop :=
  ∀ (s : State) (c p : Nat), s.fsm = .fn → c = s.cursor.toNat → p = s.pend.toNat →
    (p ≤ c → framerStep s = reject .truncatedBuffer c s) ∧
    (c < p → s.fbuf.read c ≠ 0x06 → framerStep s = reject .unexpectedFunction c s) ∧
    (c < p → s.fbuf.read c = 0x06 → ∃ cur, framerStep s = { s with cursor := cur, fsm := .par } ∧
      cur.toNat = c + 1)

/-- R108: PAR. It accepts at CURSOR = PEND; an unknown code, or a code, escape width, real code or
payload that does not fit before PEND is rejected at its offset; else the parameter is decoded and
CURSOR moves past it. -/
def Obligations.ParRule : Prop :=
  ∀ (s : State) (c p : Nat), s.fsm = .par → c = s.cursor.toNat → p = s.pend.toNat →
    (c = p → framerStep s = accept s) ∧
    (c < p → s.fbuf.read c = 0xFE → p ≤ c + 1 →
      framerStep s = reject .truncatedBuffer (c + 1) s) ∧
    (c < p → s.fbuf.read c = 0xFE → p = c + 2 →
      framerStep s = reject .truncatedBuffer (c + 2) s) ∧
    (∀ w, s.fbuf.read c = 0xFE → c + 2 < p → w = (s.fbuf.read (c + 1)).toNat → p < c + 3 + w →
      framerStep s = reject .truncatedBuffer (c + 3) s) ∧
    (∀ w, s.fbuf.read c = 0xFE → c + 2 < p → w = (s.fbuf.read (c + 1)).toNat → c + 3 + w ≤ p →
      ∃ cur, framerStep s = { s with
        shadow := semantic (s.fbuf.read (c + 2)) w (fun i => s.fbuf.read (c + 3 + i)) s.shadow,
        cursor := cur } ∧ cur.toNat = c + 3 + w) ∧
    (c < p → s.fbuf.read c ≠ 0xFE → catalog (s.fbuf.read c) = none →
      framerStep s = reject .unknownParameter c s) ∧
    (∀ w, c < p → s.fbuf.read c ≠ 0xFE → catalog (s.fbuf.read c) = some w → p < c + 1 + w.toNat →
      framerStep s = reject .truncatedBuffer (c + 1) s) ∧
    (∀ w, c < p → s.fbuf.read c ≠ 0xFE → catalog (s.fbuf.read c) = some w → c + 1 + w.toNat ≤ p →
      ∃ cur, framerStep s = { s with
        shadow := semantic (s.fbuf.read c) w.toNat (fun i => s.fbuf.read (c + 1 + i)) s.shadow,
        cursor := cur } ∧ cur.toNat = c + 1 + w.toNat)

/-- Derived (R109, R110): what accept() and reject(code, pos) write; everything else stays. That
the shadow too stays as it was at accept() is the model's choice (log entry 13). -/
def Obligations.AcceptAndRejectWrites : Prop :=
  (∀ s : State, accept s = { s with
    snap := s.shadow, accepted := true, done := true, derr := .none, fsm := .accept }) ∧
  (∀ (code : ErrorCode) (pos : Nat) (s : State), pos ≤ 200 → ∃ c, c.toNat = pos ∧
    reject code pos s = { s with
      cursor := c, derr := code, done := true, accepted := false,
      shadow := Snapshot.zero, fsm := .reject }) ∧
  (∀ s : State, (accept s).busy = false) ∧
  (∀ (code : ErrorCode) (pos : Nat) (s : State), (reject code pos s).busy = false)

/-- Derived (R109, R31): a Framer step that enters ACCEPT comes from PAR with CURSOR = PEND, commits
the shadow, and leaves DONE = 1, ACCEPTED = 1, DERR = 0, BUSY = 0 and VALID[8] = 1. -/
def Obligations.AcceptOutcome : Prop :=
  ∀ s : State, Inv s → s.busy = true → (framerStep s).fsm = .accept →
    s.fsm = .par ∧ s.cursor = s.pend ∧ (framerStep s).snap = s.shadow ∧
    (framerStep s).done = true ∧ (framerStep s).accepted = true ∧ (framerStep s).derr = .none ∧
    (framerStep s).busy = false ∧ (readReg .valid (framerStep s)).getLsbD 8 = true

/-- Derived (R110, R123): a Framer step that enters REJECT leaves DERR != 0, DONE = 1,
ACCEPTED = 0, BUSY = 0, the shadow cleared, VALID and every telemetry register reading 0, and
FBUF as it was. -/
def Obligations.RejectOutcome : Prop :=
  ∀ s : State, Inv s → s.busy = true → (framerStep s).fsm = .reject →
    (framerStep s).derr ≠ .none ∧ (framerStep s).done = true ∧
    (framerStep s).accepted = false ∧ (framerStep s).busy = false ∧
    (framerStep s).shadow = Snapshot.zero ∧ (framerStep s).fbuf = s.fbuf ∧
    ∀ r ∈ [Reg.valid, .tel0, .tel1, .fw0, .fw1, .sid0, .sid1, .sid2, .sid3, .ident],
      readReg r (framerStep s) = 0

/-- R119: the invariants of a decode. CURSOR <= PEND = LEN - 2 from IDN on, also
where the decode ends; no read of IDN, FUN or
PAR reaches an address at or past PEND (the step is the same over any buffer that agrees below
PEND); FBUF and LEN are not written; the committed snapshot stays zero until accept(). -/
def Obligations.FramerBounds : Prop :=
  (∀ s : State, Inv s → s.busy = true →
    s.fsm.readsFields = true ∨ (framerStep s).fsm.readsFields = true →
      (framerStep s).cursor.toNat ≤ (framerStep s).pend.toNat ∧
      (framerStep s).pend.toNat + 2 = (framerStep s).len.toNat) ∧
  (∀ (s : State) (m : Memory), s.fsm.readsFields = true → s.cursor.toNat ≤ s.pend.toNat →
    (∀ a, a < s.pend.toNat → m.read a = s.fbuf.read a) →
      framerStep { s with fbuf := m } = { framerStep s with fbuf := m }) ∧
  (∀ s : State, (framerStep s).fbuf = s.fbuf ∧ (framerStep s).len = s.len) ∧
  (∀ s : State, Inv s → s.busy = true → s.snap = Snapshot.zero ∧
    ((framerStep s).fsm ≠ .accept → (framerStep s).snap = Snapshot.zero))

/-- R111 and R112: what a parameter of each code at its semantic width writes, and that every other
parameter writes nothing; and a non-escaped semantic code always has its semantic width. -/
def Obligations.SemanticTable : Prop :=
  (∀ (b : Nat → Byte) (n : Snapshot),
    semantic 0x01 1 b n = { n with
      onOff := if b 0 = 0 then 0 else 1, valid := n.valid ||| BitVec.twoPow 9 0 } ∧
    semantic 0x02 1 b n = { n with battery := b 0, valid := n.valid ||| BitVec.twoPow 9 1 } ∧
    semantic 0x31 1 b n = { n with temperature := b 0, valid := n.valid ||| BitVec.twoPow 9 2 } ∧
    semantic 0x04 2 b n = { n with
      fanSpeed := b 1 ++ b 0, valid := n.valid ||| BitVec.twoPow 9 3 } ∧
    semantic 0x2E 1 b n = { n with humidity := b 0, valid := n.valid ||| BitVec.twoPow 9 4 } ∧
    semantic 0x86 6 b n = { n with
      fwMajor := b 0, fwMinor := b 1, fwDay := b 2, fwMonth := b 3, fwYear := b 5 ++ b 4,
      valid := n.valid ||| BitVec.twoPow 9 5 } ∧
    semantic 0xB9 unitTypeWidth.toNat b n = { n with
      unitType := b 0, valid := n.valid ||| BitVec.twoPow 9 6 } ∧
    semantic 0x7C 16 b n = { n with
      sid0 := b 3 ++ b 2 ++ b 1 ++ b 0, sid1 := b 7 ++ b 6 ++ b 5 ++ b 4,
      sid2 := b 11 ++ b 10 ++ b 9 ++ b 8, sid3 := b 15 ++ b 14 ++ b 13 ++ b 12,
      valid := n.valid ||| BitVec.twoPow 9 7 }) ∧
  (∀ (real : Byte) (w : Nat) (b : Nat → Byte) (n : Snapshot),
    (real.toNat, w) ∉ [(0x01, 1), (0x02, 1), (0x31, 1), (0x04, 2), (0x2E, 1), (0x86, 6),
      (0xB9, unitTypeWidth.toNat), (0x7C, 16)] → semantic real w b n = n) ∧
  (∀ (real w : Byte) (a : Attr), attrOfCode real = some a → catalog real = some w →
    w.toNat = semanticWidth a)

/-- Derived (R114): decoding a code again at the same width leaves what the last occurrence alone
would leave; anywhere in a stream, an occurrence that comes before a decoded occurrence of its code
leaves no trace, whatever stands before, between and after them; and the values of a decoded
occurrence stand at the end of the stream (decoding it once more changes nothing) when no later item
decodes its code. -/
def Obligations.LastOccurrenceStands : Prop :=
  (∀ (real : Byte) (w : Nat) (b c : Nat → Byte) (n : Snapshot),
    semantic real w c (semantic real w b n) = semantic real w c n) ∧
  (∀ (x y : StreamItem) (a : Attr) (before between after : List StreamItem) (n : Snapshot),
    x.code = y.code → y.decodes a →
      foldStream (before ++ x :: between ++ y :: after) n =
        foldStream (before ++ between ++ y :: after) n) ∧
  (∀ (y : StreamItem) (a : Attr) (before after : List StreamItem) (n : Snapshot),
    y.decodes a → (∀ z ∈ after, ¬ z.decodes a) →
      semantic y.code y.payload.length (fun i => y.payload.getD i 0)
          (foldStream (before ++ y :: after) n) =
        foldStream (before ++ y :: after) n)

/-- R118: every decode ends. HDR, CKS, IDN and FUN step once; every PAR step ends the decode or
advances CURSOR while CURSOR <= PEND; a decode takes at most LEN + 5 Framer steps and ends in
ACCEPT or REJECT. -/
def Obligations.EveryDecodeEnds : Prop :=
  (∀ s : State, s.fsm = .hdr → (framerStep s).fsm = .cks ∨ (framerStep s).fsm = .reject) ∧
  (∀ s : State, s.fsm = .cks → (framerStep s).fsm = .idn ∨ (framerStep s).fsm = .reject) ∧
  (∀ s : State, s.fsm = .idn → (framerStep s).fsm = .fn ∨ (framerStep s).fsm = .reject) ∧
  (∀ s : State, s.fsm = .fn → (framerStep s).fsm = .par ∨ (framerStep s).fsm = .reject) ∧
  (∀ s : State, s.fsm = .par → s.cursor.toNat ≤ s.pend.toNat →
    (framerStep s).fsm = .accept ∨ (framerStep s).fsm = .reject ∨
    ((framerStep s).fsm = .par ∧ s.cursor.toNat < (framerStep s).cursor.toNat ∧
      (framerStep s).cursor.toNat ≤ (framerStep s).pend.toNat ∧
      (framerStep s).pend = s.pend)) ∧
  (∀ s : State, s.busy = false → s.len.toNat ≤ 200 →
    ∃ t, exec .decode s = .next t ∧
      ((framerRun (s.len.toNat + 5) t).fsm = .accept ∨
       (framerRun (s.len.toNat + 5) t).fsm = .reject))

/-- R120: the Framer's steps from DECODE to the decode's end compute a function of the bytes
FBUF[0 .. LEN), the first failing check in the order HDR, CKS, IDN, FUN, PAR giving the result. -/
def Obligations.DecodeIsAFunctionOfTheFrame : Prop :=
  ∀ s : State, s.busy = false → s.len.toNat ≤ 200 →
    ∃ t, exec .decode s = .next t ∧
      decodeResult (framerRun (s.len.toNat + 5) t) =
        some (parseFrame (bytesAt s.fbuf 0 s.len.toNat))

/-- Derived (R66, R72, R104 to R109; spec 95, W2): a response datagram of the wire format, whatever
its identity strings and its parameter items, is accepted, and the snapshot holds its fields and
the place of its identity strings. -/
def Obligations.WellFormedResponseAccepted : Prop :=
  ∀ (s : State) (id pw : List Byte) (items : List StreamItem), s.busy = false →
    (∀ i ∈ items, i.legal) →
    bytesAt s.fbuf 0 s.len.toNat = frame id pw .response (streamBytes items) →
    s.len.toNat ≤ 200 →
      ∃ t, exec .decode s = .next t ∧
        decodeResult (framerRun (s.len.toNat + 5) t) =
          some (.accepted (responseSnapshot id pw items)) ∧
        deviceIdOf (framerRun (s.len.toNat + 5) t) = id ∧
        passwordOf (framerRun (s.len.toNat + 5) t) = pw

/-- Derived (R66, R67, R70, R72, R104 to R108): only a response datagram of the wire format is
accepted. -/
def Obligations.OnlyWellFormedResponsesAccepted : Prop :=
  ∀ (s t : State) (n : Snapshot), s.busy = false → s.len.toNat ≤ 200 →
    exec .decode s = .next t →
    decodeResult (framerRun (s.len.toNat + 5) t) = some (.accepted n) →
      ∃ id pw items, (∀ i ∈ items, i.legal) ∧
        bytesAt s.fbuf 0 s.len.toNat = frame id pw .response (streamBytes items) ∧
        n = responseSnapshot id pw items

/-! ## The wire format -/

/-- Derived (R79): the length of an outbound frame. -/
def Obligations.OutboundFrameLength : Prop :=
  ∀ (id pw params : List Byte) (f : FunctionCode),
    (frame id pw f params).length = 3 + (1 + id.length) + (1 + pw.length) + 1 + params.length + 2

/-- Derived (R70, R73, R95): SEAL over the bytes of a frame without its trailer gives the frame. -/
def Obligations.SealCompletesTheFrame : Prop :=
  ∀ (s : State) (id pw params : List Byte) (f : FunctionCode), s.busy = false →
    bytesAt s.fbuf 0 s.len.toNat = frameBody id pw f.code params → s.len.toNat ≤ 198 →
      ∃ t, exec .sealOp s = .next t ∧
        bytesAt t.fbuf 0 t.len.toNat = frame id pw f params

/-! ## Registers -/

/-- Derived (R21, R24, R25, R121): the fields of STATUS as a host reads them at offset 0x08, with the
numbers of the states and of the error codes. -/
def Obligations.StatusLayout : Prop :=
  ∀ s : State,
    (readAt 0x08 s).getLsbD 0 = s.busy ∧
    (readAt 0x08 s).extractLsb' 1 3 = (match s.fsm with
      | .idle => 0#3 | .hdr => 1#3 | .cks => 2#3 | .idn => 3#3 | .fn => 4#3 | .par => 5#3
      | .accept => 6#3 | .reject => 7#3) ∧
    (readAt 0x08 s).getLsbD 4 = s.done ∧ (readAt 0x08 s).getLsbD 5 = s.accepted ∧
    (readAt 0x08 s).getLsbD 6 = s.ckok ∧ (readAt 0x08 s).getLsbD 7 = s.cmderr ∧
    (readAt 0x08 s).extractLsb' 8 4 = (match s.derr with
      | .none => 0#4 | .headerInvalid => 1#4 | .checksumMismatch => 2#4
      | .unexpectedFunction => 3#4 | .unknownParameter => 4#4 | .truncatedBuffer => 5#4
      | .encodingOverflow => 6#4 | .illegalCommand => 7#4 | .busyViolation => 8#4) ∧
    (readAt 0x08 s).extractLsb' 12 4 = (match s.cerr with
      | .none => 0#4 | .headerInvalid => 1#4 | .checksumMismatch => 2#4
      | .unexpectedFunction => 3#4 | .unknownParameter => 4#4 | .truncatedBuffer => 5#4
      | .encodingOverflow => 6#4 | .illegalCommand => 7#4 | .busyViolation => 8#4) ∧
    (readAt 0x08 s).extractLsb' 16 16 = 0 ∧
    (s.busy = true ↔ 1 ≤ ((readAt 0x08 s).extractLsb' 1 3).toNat ∧
      ((readAt 0x08 s).extractLsb' 1 3).toNat ≤ 5)

/-- Derived (R21, R30, R43): the fields of the other registers as a host reads them, with the numbers
of LKUP.CLASS. -/
def Obligations.RegisterLayout : Prop :=
  ∀ s : State,
    readAt 0x00 s = 0xC5160100#32 ∧ readAt 0x04 s = 0 ∧
    (readAt 0x0C s).toNat = s.len.toNat ∧ (readAt 0x10 s).toNat = s.cursor.toNat ∧
    (readAt 0x14 s).toNat = s.acc.toNat ∧ (readAt 0x18 s).toNat = s.rdata.toNat ∧
    (readAt 0x1C s).toNat = s.lkup.width.toNat + 256 * (match s.lkup.cls with
      | .notFound => 0 | .fixed => 1 | .escape => 2) ∧
    (readAt 0x20 s).toNat = s.snap.valid.toNat ∧
    (readAt 0x24 s).toNat = s.snap.onOff.toNat + 2 ^ 8 * s.snap.battery.toNat +
      2 ^ 16 * s.snap.temperature.toNat + 2 ^ 24 * s.snap.humidity.toNat ∧
    (readAt 0x28 s).toNat = s.snap.fanSpeed.toNat + 2 ^ 16 * s.snap.unitType.toNat ∧
    (readAt 0x2C s).toNat = s.snap.fwMajor.toNat + 2 ^ 8 * s.snap.fwMinor.toNat +
      2 ^ 16 * s.snap.fwDay.toNat + 2 ^ 24 * s.snap.fwMonth.toNat ∧
    (readAt 0x30 s).toNat = s.snap.fwYear.toNat ∧
    readAt 0x34 s = s.snap.sid0 ∧ readAt 0x38 s = s.snap.sid1 ∧ readAt 0x3C s = s.snap.sid2 ∧
    readAt 0x40 s = s.snap.sid3 ∧
    (readAt 0x44 s).toNat = s.snap.idOff.toNat + 2 ^ 8 * s.snap.idLen.toNat +
      2 ^ 16 * s.snap.pwOff.toNat + 2 ^ 24 * s.snap.pwLen.toNat
end

