-- ==== Sys2Proof/Laws/Decode.lean ====
section
/-! SUPPORT. The fields of an encoded word, and what a decoded word is. -/

namespace Sys2Proof

@[simp] theorem opField_commandWord (op a b : Byte) : opField (commandWord op a b) = op := by
  apply BitVec.eq_of_getLsbD_eq
  intro i hi
  simp only [opField, commandWord, BitVec.getLsbD_extractLsb', BitVec.getLsbD_append]
  simp [hi, show ¬ 24 + i < 8 by omega, show ¬ 24 + i - 8 < 8 by omega,
    show ¬ 24 + i - 8 - 8 < 8 by omega, show 24 + i - 8 - 8 - 8 = i by omega]

@[simp] theorem rsvField_commandWord (op a b : Byte) : rsvField (commandWord op a b) = 0 := by
  apply BitVec.eq_of_getLsbD_eq
  intro i hi
  simp only [rsvField, commandWord, BitVec.getLsbD_extractLsb', BitVec.getLsbD_append]
  simp [hi, show ¬ 16 + i < 8 by omega, show ¬ 16 + i - 8 < 8 by omega,
    show 16 + i - 8 - 8 < 8 by omega]

@[simp] theorem aField_commandWord (op a b : Byte) : aField (commandWord op a b) = a := by
  apply BitVec.eq_of_getLsbD_eq
  intro i hi
  simp only [aField, commandWord, BitVec.getLsbD_extractLsb', BitVec.getLsbD_append]
  simp [hi, show ¬ 8 + i < 8 by omega, show 8 + i - 8 = i by omega]

@[simp] theorem bField_commandWord (op a b : Byte) : bField (commandWord op a b) = b := by
  apply BitVec.eq_of_getLsbD_eq
  intro i hi
  simp only [bField, commandWord, BitVec.getLsbD_extractLsb', BitVec.getLsbD_append]
  simp [hi]

/-- A word is made of its four fields (R58). -/
theorem word_eq_fields (w : Word) : w = opField w ++ rsvField w ++ aField w ++ bField w := by
  apply BitVec.eq_of_getLsbD_eq
  intro i hi
  simp only [BitVec.getLsbD_append, opField, rsvField, aField, bField, BitVec.getLsbD_extractLsb']
  by_cases h₁ : i < 8
  · simp [h₁]
  · by_cases h₂ : i - 8 < 8
    · simp [h₁, h₂, show 8 + (i - 8) = i by omega]
    · by_cases h₃ : i - 8 - 8 < 8
      · simp [h₁, h₂, h₃, show 16 + (i - 8 - 8) = i by omega]
      · simp [h₁, h₂, h₃, show i - 8 - 8 - 8 < 8 by omega,
          show 24 + (i - 8 - 8 - 8) = i by omega]

/-- A word whose RSV is 0 is the command word of its other fields. -/
theorem word_eq_commandWord {w : Word} (h : rsvField w = 0) :
    w = commandWord (opField w) (aField w) (bField w) := by
  conv_lhs => rw [word_eq_fields w, h]
  rfl

/-- What a decoded word is: its opcode is in the map, RSV is 0 and its unused fields are 0. -/
theorem decode_ok_iff (w : Word) (i : Instr) :
    decode w = .ok i ↔ ∃ u, opcodeUse (opField w).toNat = some u ∧ rsvField w = 0 ∧
      (u.usesA = false → aField w = 0) ∧ (u.usesB = false → bField w = 0) ∧
      i = u.make (aField w) (bField w) := by
  unfold decode
  cases hu : opcodeUse (opField w).toNat with
  | none => simp
  | some u =>
    by_cases hr : rsvField w = 0#8
    · cases ha : u.usesA <;> cases hb : u.usesB <;> by_cases h₁ : aField w = 0#8 <;>
        by_cases h₂ : bField w = 0#8 <;> simp [hr, ha, hb, h₁, h₂] <;> exact eq_comm
    · simp [hr]

/-- The opcodes of the map are 0x00 to 0x0C (R60). -/
theorem opcodeUse_cases {n : Nat} {u : OpcodeUse} (h : opcodeUse n = some u) : n ≤ 0x0C := by
  unfold opcodeUse at h
  split at h <;> first | omega | simp at h

end Sys2Proof
end

