-- ==== Sys2Proof/Laws/Memory.lean ====
section
/-! SUPPORT. The laws of the frame buffer: read after write, a write leaves every other byte
alone, and every write at an address that exists keeps the canonical form. -/

namespace Sys2Proof.Machine

@[simp] theorem Memory.read_nil (a : Nat) : Memory.read [] a = Config.fbufInit a := rfl

theorem Memory.read_cons (c : Host.Cell) (m : Memory) (a : Nat) :
    Memory.read (c :: m) a = if c.1 = a then c.2 else m.read a := rfl

theorem Memory.write_cons (c : Host.Cell) (m : Memory) (a : Nat) (v : Byte) :
    Memory.write (c :: m) a v =
      if a < c.1 then (a, v) :: c :: m
      else if c.1 = a then (a, v) :: m
      else c :: m.write a v := rfl

theorem Memory.read_write (m : Memory) (a c : Nat) (v : Byte) :
    (m.write a v).read c = if c = a then v else m.read c := by
  induction m with
  | nil => simp [Memory.write, Memory.read_cons, eq_comm]
  | cons x m ih =>
    rw [Memory.write_cons]
    by_cases h₁ : a < x.1
    · simp only [h₁, if_true, Memory.read_cons]
      by_cases h : c = a
      · simp [h]
      · simp [h, Ne.symm h]
    · by_cases h₂ : x.1 = a
      · rw [if_neg h₁, if_pos h₂, Memory.read_cons, Memory.read_cons, h₂]
        by_cases h : c = a
        · simp [h]
        · simp [h, Ne.symm h]
      · simp only [h₁, h₂, if_false, Memory.read_cons, ih]
        by_cases h : c = a
        · subst h; simp [h₂]
        · simp [h]

/-- A read after a write to the same address gives the byte written. -/
@[simp] theorem Memory.read_write_same (m : Memory) (a : Nat) (v : Byte) :
    (m.write a v).read a = v := by simp [Memory.read_write]

/-- A write leaves every other byte alone. -/
theorem Memory.read_write_other (m : Memory) {a c : Nat} (v : Byte) (h : c ≠ a) :
    (m.write a v).read c = m.read c := by simp [Memory.read_write, h]

/-- Writing at a listed address of a rising run of addresses keeps the addresses. -/
theorem Memory.write_addresses (m : Memory) (k n a : Nat) (v : Byte)
    (h : m.map Prod.fst = List.range' k n) (hk : k ≤ a) (ha : a < k + n) :
    (m.write a v).map Prod.fst = List.range' k n := by
  induction m generalizing k n with
  | nil =>
    cases n with
    | zero => omega
    | succ n => simp [List.range'] at h
  | cons x m ih =>
    cases n with
    | zero => omega
    | succ n =>
      simp only [List.map_cons, List.range'_succ, List.cons.injEq] at h
      obtain ⟨h₁, h₂⟩ := h
      rw [Memory.write_cons, if_neg (by omega : ¬ a < x.1)]
      by_cases h₃ : x.1 = a
      · simp [h₃, List.range'_succ, h₂, ← h₁]
      · rw [if_neg h₃, List.map_cons, List.range'_succ, h₁,
          ih (k + 1) n h₂ (by omega) (by omega)]

theorem Memory.wf_iff (m : Memory) :
    m.wf = true ↔ m.map Prod.fst = List.range' 0 200 := by
  simp [Memory.wf, List.range_eq_range', Config.capacity]

/-- Every write at an address that exists keeps the canonical form. -/
theorem Memory.wf_write (m : Memory) (a : Nat) (v : Byte) (h : m.wf = true) (ha : a < 200) :
    (m.write a v).wf = true := by
  rw [Memory.wf_iff] at *
  exact Memory.write_addresses m 0 200 a v h (by omega) (by omega)

theorem Memory.wf_reset : Memory.reset.wf = true := by
  rw [Memory.wf_iff, Memory.reset, List.map_map]
  simp [Function.comp_def, List.range_eq_range', Config.capacity]

theorem Memory.read_map_range' (k n a : Nat) :
    Memory.read ((List.range' k n).map fun i => (i, Config.fbufInit i)) a = Config.fbufInit a := by
  induction n generalizing k with
  | zero => rfl
  | succ n ih =>
    rw [List.range'_succ, List.map_cons, Memory.read_cons]
    by_cases h : k = a
    · simp [h]
    · simp [h, ih]

/-- After power-on every byte is FBUF_INIT's (R136). -/
@[simp] theorem Memory.read_reset (a : Nat) : Memory.reset.read a = Config.fbufInit a := by
  rw [Memory.reset, List.range_eq_range']; exact Memory.read_map_range' 0 _ a

/-- Two canonical buffers that read alike are equal data. -/
theorem Memory.eq_of_addresses {m₁ m₂ : Memory} {k n : Nat}
    (h₁ : m₁.map Prod.fst = List.range' k n) (h₂ : m₂.map Prod.fst = List.range' k n)
    (h : ∀ a, k ≤ a → m₁.read a = m₂.read a) : m₁ = m₂ := by
  induction m₁ generalizing m₂ k n with
  | nil =>
    cases n with
    | zero =>
      cases m₂ with
      | nil => rfl
      | cons y m₂ => simp at h₂
    | succ n => simp [List.range'] at h₁
  | cons x m₁ ih =>
    cases n with
    | zero => simp at h₁
    | succ n =>
      cases m₂ with
      | nil => simp [List.range'] at h₂
      | cons y m₂ =>
        simp only [List.map_cons, List.range'_succ, List.cons.injEq] at h₁ h₂
        obtain ⟨hx, h₁⟩ := h₁
        obtain ⟨hy, h₂⟩ := h₂
        have hv := h k (le_refl k)
        simp only [Memory.read_cons, hx, hy, if_true] at hv
        have hxy : x = y := Prod.ext (by omega) hv
        refine List.cons_eq_cons.mpr ⟨hxy, ih h₁ h₂ fun a ha => ?_⟩
        have := h a (by omega)
        simpa [Memory.read_cons, hx, hy, show ¬ k = a by omega] using this

/-- Two buffers of the canonical form that read alike are the same list. -/
theorem Memory.eq_of_read {m₁ m₂ : Memory} (h₁ : m₁.wf = true) (h₂ : m₂.wf = true)
    (h : ∀ a, m₁.read a = m₂.read a) : m₁ = m₂ :=
  Memory.eq_of_addresses ((Memory.wf_iff _).mp h₁) ((Memory.wf_iff _).mp h₂) fun a _ => h a

/-! The reduction. -/

theorem byteSum_succ (m : Memory) (a n : Nat) :
    byteSum m a (n + 1) = (m.read a).toNat + byteSum m (a + 1) n := rfl

theorem byteSum_le (m : Memory) (a n : Nat) : byteSum m a n ≤ 255 * n := by
  induction n generalizing a with
  | zero => simp [byteSum]
  | succ n ih =>
    have := ih (a + 1)
    have := (m.read a).isLt
    rw [byteSum_succ]; omega

/-- The sum reads only the bytes of its range. -/
theorem byteSum_congr {m₁ m₂ : Memory} {a n : Nat}
    (h : ∀ i, a ≤ i → i < a + n → m₁.read i = m₂.read i) : byteSum m₁ a n = byteSum m₂ a n := by
  induction n generalizing a with
  | zero => rfl
  | succ n ih =>
    rw [byteSum_succ, byteSum_succ, h a (by omega) (by omega),
      ih fun i h₁ h₂ => h i (by omega) (by omega)]

/-- A write outside the range leaves the sum. -/
theorem byteSum_write_outside (m : Memory) (a n c : Nat) (v : Byte) (h : c < a ∨ a + n ≤ c) :
    byteSum (m.write c v) a n = byteSum m a n :=
  byteSum_congr fun i h₁ h₂ => Memory.read_write_other m v (by omega)

/-- A write inside the range changes the sum by the byte's change. -/
theorem byteSum_write_inside (m : Memory) (a n c : Nat) (v : Byte) (h₁ : a ≤ c) (h₂ : c < a + n) :
    byteSum (m.write c v) a n + (m.read c).toNat = byteSum m a n + v.toNat := by
  induction n generalizing a with
  | zero => omega
  | succ n ih =>
    rw [byteSum_succ, byteSum_succ]
    by_cases h : c = a
    · subst h
      rw [Memory.read_write_same, byteSum_write_outside m (c + 1) n c v (by omega)]
      omega
    · have := ih (a + 1) (by omega) (by omega)
      rw [Memory.read_write_other m v (Ne.symm h)]
      omega

/-- The recursive sum is the sum over the range (R14). -/
theorem byteSum_eq (m : Memory) (a n : Nat) :
    byteSum m a n = ((List.range n).map fun i => (m.read (a + i)).toNat).sum := by
  induction n generalizing a with
  | zero => rfl
  | succ n ih =>
    rw [byteSum_succ, ih, List.range_succ_eq_map]
    simp [Function.comp_def, Nat.add_assoc, Nat.add_comm 1]

@[simp] theorem sum16_empty (m : Memory) (a b : Nat) (h : b ≤ a) : sum16 m a b = 0 := by
  simp [sum16, Nat.sub_eq_zero_of_le h, byteSum]

/-- Within a frame of at most 200 bytes the sum does not wrap (R89). -/
theorem sum16_toNat (m : Memory) (b : Nat) (h : b ≤ 200) :
    (sum16 m 2 b).toNat = byteSum m 2 (b - 2) := by
  have := byteSum_le m 2 (b - 2)
  simp only [sum16, BitVec.toNat_ofNat]
  omega

/-! The trailer. -/

theorem le16_toNat (a b : Byte) : (le16 a b).toNat = a.toNat + 256 * b.toNat := by
  rw [le16, BitVec.toNat_append, Nat.shiftLeft_eq, Nat.mul_comm,
    ← Nat.two_pow_add_eq_or_of_lt a.isLt]
  omega

theorem lowByte_toNat (h : Half) : (lowByte h).toNat = h.toNat % 256 := by
  simp [lowByte, BitVec.extractLsb'_toNat]

theorem highByte_toNat (h : Half) : (highByte h).toNat = h.toNat / 256 := by
  have := h.isLt
  simp only [highByte, BitVec.extractLsb'_toNat, Nat.shiftRight_eq_div_pow]
  omega

/-- A sum's two bytes, low first, give the sum back (R70). -/
@[simp] theorem le16_low_high (h : Half) : le16 (lowByte h) (highByte h) = h := by
  rw [← BitVec.toNat_inj, le16_toNat, lowByte_toNat, highByte_toNat]; omega

@[simp] theorem lowByte_le16 (a b : Byte) : lowByte (le16 a b) = a := by
  rw [← BitVec.toNat_inj, lowByte_toNat, le16_toNat]; omega

@[simp] theorem highByte_le16 (a b : Byte) : highByte (le16 a b) = b := by
  rw [← BitVec.toNat_inj, highByte_toNat, le16_toNat]; omega

@[simp] theorem appendTrailer_read_low (m : Memory) (n : Nat) (h : Half) :
    (appendTrailer m n h).read n = lowByte h := by
  rw [appendTrailer, Memory.read_write_other _ _ (by omega), Memory.read_write_same]

@[simp] theorem appendTrailer_read_high (m : Memory) (n : Nat) (h : Half) :
    (appendTrailer m n h).read (n + 1) = highByte h := by
  rw [appendTrailer, Memory.read_write_same]

theorem appendTrailer_read_other (m : Memory) (n : Nat) (h : Half) {c : Nat} (h₁ : c ≠ n)
    (h₂ : c ≠ n + 1) : (appendTrailer m n h).read c = m.read c := by
  rw [appendTrailer, Memory.read_write_other _ _ h₂, Memory.read_write_other _ _ h₁]

theorem appendTrailer_wf (m : Memory) (n : Nat) (h : Half) (hm : m.wf = true) (hn : n + 2 ≤ 200) :
    (appendTrailer m n h).wf = true :=
  Memory.wf_write _ _ _ (Memory.wf_write _ _ _ hm (by omega)) (by omega)

/-! Frame bytes as lists. -/

@[simp] theorem bytesAt_length (m : Memory) (a n : Nat) : (bytesAt m a n).length = n := by
  induction n generalizing a with
  | zero => rfl
  | succ n ih => simp [bytesAt, ih]

theorem bytesAt_getD (m : Memory) (a n i : Nat) (h : i < n) :
    (bytesAt m a n).getD i 0 = m.read (a + i) := by
  induction n generalizing a i with
  | zero => omega
  | succ n ih =>
    cases i with
    | zero => simp [bytesAt]
    | succ i =>
      have := ih (a + 1) i (by omega)
      simp only [bytesAt, List.getD_cons_succ, this]
      congr 1; omega

theorem bytesAt_drop (m : Memory) (a n k : Nat) :
    (bytesAt m a n).drop k = bytesAt m (a + k) (n - k) := by
  induction k generalizing a n with
  | zero => simp
  | succ k ih =>
    cases n with
    | zero => simp [bytesAt]
    | succ n =>
      simp only [bytesAt, List.drop_succ_cons, ih, Nat.add_sub_add_right]
      congr 1; omega

theorem bytesAt_take (m : Memory) (a n k : Nat) :
    (bytesAt m a n).take k = bytesAt m a (min k n) := by
  induction k generalizing a n with
  | zero => simp [bytesAt]
  | succ k ih =>
    cases n with
    | zero => simp [bytesAt]
    | succ n => simp [bytesAt, ih, Nat.succ_min_succ]

theorem bytesAt_append (m : Memory) (a n k : Nat) :
    bytesAt m a (n + k) = bytesAt m a n ++ bytesAt m (a + n) k := by
  induction n generalizing a with
  | zero => simp [bytesAt]
  | succ n ih => rw [Nat.add_right_comm, bytesAt, ih, bytesAt, Nat.add_right_comm, Nat.add_assoc]; rfl

theorem bytesAt_congr {m₁ m₂ : Memory} {a n : Nat}
    (h : ∀ i, a ≤ i → i < a + n → m₁.read i = m₂.read i) : bytesAt m₁ a n = bytesAt m₂ a n := by
  induction n generalizing a with
  | zero => rfl
  | succ n ih =>
    rw [bytesAt, bytesAt, h a (by omega) (by omega), ih fun i h₁ h₂ => h i (by omega) (by omega)]

theorem listSum_bytesAt (m : Memory) (a n : Nat) : listSum (bytesAt m a n) = byteSum m a n := by
  induction n generalizing a with
  | zero => rfl
  | succ n ih => simp [bytesAt, listSum, byteSum, ih]

/-- The wire format's checksum is the buffer's (R70, R87). -/
theorem checksumOf_bytesAt (m : Memory) (n : Nat) : checksumOf (bytesAt m 0 n) = sum16 m 2 n := by
  rw [checksumOf, bytesAt_drop, listSum_bytesAt]; simp [sum16]

end Sys2Proof.Machine
end

