-- ==== Sys2Proof/Laws/State.lean ====
section
/-! SUPPORT. One lemma per field per named state update, so that no proof unfolds a record
update. -/

namespace Sys2Proof.Machine

@[simp] theorem commandError_fbuf (c : ErrorCode) (s : State) :
    (commandError c s).fbuf = s.fbuf := rfl
@[simp] theorem commandError_len (c : ErrorCode) (s : State) : (commandError c s).len = s.len := rfl
@[simp] theorem commandError_cursor (c : ErrorCode) (s : State) :
    (commandError c s).cursor = s.cursor := rfl
@[simp] theorem commandError_acc (c : ErrorCode) (s : State) : (commandError c s).acc = s.acc := rfl
@[simp] theorem commandError_rdata (c : ErrorCode) (s : State) :
    (commandError c s).rdata = s.rdata := rfl
@[simp] theorem commandError_lkup (c : ErrorCode) (s : State) :
    (commandError c s).lkup = s.lkup := rfl
@[simp] theorem commandError_fsm (c : ErrorCode) (s : State) : (commandError c s).fsm = s.fsm := rfl
@[simp] theorem commandError_done (c : ErrorCode) (s : State) :
    (commandError c s).done = s.done := rfl
@[simp] theorem commandError_accepted (c : ErrorCode) (s : State) :
    (commandError c s).accepted = s.accepted := rfl
@[simp] theorem commandError_ckok (c : ErrorCode) (s : State) :
    (commandError c s).ckok = s.ckok := rfl
@[simp] theorem commandError_cmderr (c : ErrorCode) (s : State) :
    (commandError c s).cmderr = true := rfl
@[simp] theorem commandError_derr (c : ErrorCode) (s : State) :
    (commandError c s).derr = s.derr := rfl
@[simp] theorem commandError_cerr (c : ErrorCode) (s : State) : (commandError c s).cerr = c := rfl
@[simp] theorem commandError_pend (c : ErrorCode) (s : State) :
    (commandError c s).pend = s.pend := rfl
@[simp] theorem commandError_snap (c : ErrorCode) (s : State) :
    (commandError c s).snap = s.snap := rfl
@[simp] theorem commandError_shadow (c : ErrorCode) (s : State) :
    (commandError c s).shadow = s.shadow := rfl
@[simp] theorem commandError_hostOps (c : ErrorCode) (s : State) :
    (commandError c s).hostOps = s.hostOps := rfl
@[simp] theorem commandError_hostReads (c : ErrorCode) (s : State) :
    (commandError c s).hostReads = s.hostReads := rfl
@[simp] theorem commandError_hostTurns (c : ErrorCode) (s : State) :
    (commandError c s).hostTurns = s.hostTurns := rfl
@[simp] theorem commandError_draws (c : ErrorCode) (s : State) :
    (commandError c s).draws = s.draws := rfl

@[simp] theorem reject_fbuf (c : ErrorCode) (p : Nat) (s : State) :
    (reject c p s).fbuf = s.fbuf := rfl
@[simp] theorem reject_len (c : ErrorCode) (p : Nat) (s : State) : (reject c p s).len = s.len := rfl
@[simp] theorem reject_cursor (c : ErrorCode) (p : Nat) (s : State) :
    (reject c p s).cursor = BitVec.ofNat 8 p := rfl
@[simp] theorem reject_acc (c : ErrorCode) (p : Nat) (s : State) : (reject c p s).acc = s.acc := rfl
@[simp] theorem reject_rdata (c : ErrorCode) (p : Nat) (s : State) :
    (reject c p s).rdata = s.rdata := rfl
@[simp] theorem reject_lkup (c : ErrorCode) (p : Nat) (s : State) :
    (reject c p s).lkup = s.lkup := rfl
@[simp] theorem reject_fsm (c : ErrorCode) (p : Nat) (s : State) :
    (reject c p s).fsm = .reject := rfl
@[simp] theorem reject_done (c : ErrorCode) (p : Nat) (s : State) :
    (reject c p s).done = true := rfl
@[simp] theorem reject_accepted (c : ErrorCode) (p : Nat) (s : State) :
    (reject c p s).accepted = false := rfl
@[simp] theorem reject_ckok (c : ErrorCode) (p : Nat) (s : State) :
    (reject c p s).ckok = s.ckok := rfl
@[simp] theorem reject_cmderr (c : ErrorCode) (p : Nat) (s : State) :
    (reject c p s).cmderr = s.cmderr := rfl
@[simp] theorem reject_derr (c : ErrorCode) (p : Nat) (s : State) : (reject c p s).derr = c := rfl
@[simp] theorem reject_cerr (c : ErrorCode) (p : Nat) (s : State) :
    (reject c p s).cerr = s.cerr := rfl
@[simp] theorem reject_pend (c : ErrorCode) (p : Nat) (s : State) :
    (reject c p s).pend = s.pend := rfl
@[simp] theorem reject_snap (c : ErrorCode) (p : Nat) (s : State) :
    (reject c p s).snap = s.snap := rfl
@[simp] theorem reject_shadow (c : ErrorCode) (p : Nat) (s : State) :
    (reject c p s).shadow = Snapshot.zero := rfl
@[simp] theorem reject_hostOps (c : ErrorCode) (p : Nat) (s : State) :
    (reject c p s).hostOps = s.hostOps := rfl
@[simp] theorem reject_hostReads (c : ErrorCode) (p : Nat) (s : State) :
    (reject c p s).hostReads = s.hostReads := rfl
@[simp] theorem reject_hostTurns (c : ErrorCode) (p : Nat) (s : State) :
    (reject c p s).hostTurns = s.hostTurns := rfl
@[simp] theorem reject_draws (c : ErrorCode) (p : Nat) (s : State) :
    (reject c p s).draws = s.draws := rfl

@[simp] theorem accept_fbuf (s : State) : (accept s).fbuf = s.fbuf := rfl
@[simp] theorem accept_len (s : State) : (accept s).len = s.len := rfl
@[simp] theorem accept_cursor (s : State) : (accept s).cursor = s.cursor := rfl
@[simp] theorem accept_acc (s : State) : (accept s).acc = s.acc := rfl
@[simp] theorem accept_rdata (s : State) : (accept s).rdata = s.rdata := rfl
@[simp] theorem accept_lkup (s : State) : (accept s).lkup = s.lkup := rfl
@[simp] theorem accept_fsm (s : State) : (accept s).fsm = .accept := rfl
@[simp] theorem accept_done (s : State) : (accept s).done = true := rfl
@[simp] theorem accept_accepted (s : State) : (accept s).accepted = true := rfl
@[simp] theorem accept_ckok (s : State) : (accept s).ckok = s.ckok := rfl
@[simp] theorem accept_cmderr (s : State) : (accept s).cmderr = s.cmderr := rfl
@[simp] theorem accept_derr (s : State) : (accept s).derr = .none := rfl
@[simp] theorem accept_cerr (s : State) : (accept s).cerr = s.cerr := rfl
@[simp] theorem accept_pend (s : State) : (accept s).pend = s.pend := rfl
@[simp] theorem accept_snap (s : State) : (accept s).snap = s.shadow := rfl
@[simp] theorem accept_shadow (s : State) : (accept s).shadow = s.shadow := rfl
@[simp] theorem accept_hostOps (s : State) : (accept s).hostOps = s.hostOps := rfl
@[simp] theorem accept_hostReads (s : State) : (accept s).hostReads = s.hostReads := rfl
@[simp] theorem accept_hostTurns (s : State) : (accept s).hostTurns = s.hostTurns := rfl
@[simp] theorem accept_draws (s : State) : (accept s).draws = s.draws := rfl

@[simp] theorem softReset_fbuf (s : State) : (softReset s).fbuf = s.fbuf := rfl
@[simp] theorem softReset_len (s : State) : (softReset s).len = 0 := rfl
@[simp] theorem softReset_cursor (s : State) : (softReset s).cursor = 0 := rfl
@[simp] theorem softReset_acc (s : State) : (softReset s).acc = 0 := rfl
@[simp] theorem softReset_rdata (s : State) : (softReset s).rdata = 0 := rfl
@[simp] theorem softReset_lkup (s : State) : (softReset s).lkup = ⟨.notFound, 0⟩ := rfl
@[simp] theorem softReset_fsm (s : State) : (softReset s).fsm = .idle := rfl
@[simp] theorem softReset_done (s : State) : (softReset s).done = false := rfl
@[simp] theorem softReset_accepted (s : State) : (softReset s).accepted = false := rfl
@[simp] theorem softReset_ckok (s : State) : (softReset s).ckok = false := rfl
@[simp] theorem softReset_cmderr (s : State) : (softReset s).cmderr = false := rfl
@[simp] theorem softReset_derr (s : State) : (softReset s).derr = .none := rfl
@[simp] theorem softReset_cerr (s : State) : (softReset s).cerr = .none := rfl
@[simp] theorem softReset_pend (s : State) : (softReset s).pend = 0 := rfl
@[simp] theorem softReset_snap (s : State) : (softReset s).snap = Snapshot.zero := rfl
@[simp] theorem softReset_shadow (s : State) : (softReset s).shadow = Snapshot.zero := rfl
@[simp] theorem softReset_hostOps (s : State) : (softReset s).hostOps = s.hostOps := rfl
@[simp] theorem softReset_hostReads (s : State) : (softReset s).hostReads = s.hostReads := rfl
@[simp] theorem softReset_hostTurns (s : State) : (softReset s).hostTurns = s.hostTurns := rfl
@[simp] theorem softReset_draws (s : State) : (softReset s).draws = s.draws := rfl

@[simp] theorem startDecode_fbuf (s : State) : (startDecode s).fbuf = s.fbuf := rfl
@[simp] theorem startDecode_len (s : State) : (startDecode s).len = s.len := rfl
@[simp] theorem startDecode_cursor (s : State) : (startDecode s).cursor = 0 := rfl
@[simp] theorem startDecode_acc (s : State) : (startDecode s).acc = s.acc := rfl
@[simp] theorem startDecode_rdata (s : State) : (startDecode s).rdata = s.rdata := rfl
@[simp] theorem startDecode_lkup (s : State) : (startDecode s).lkup = s.lkup := rfl
@[simp] theorem startDecode_fsm (s : State) : (startDecode s).fsm = .hdr := rfl
@[simp] theorem startDecode_done (s : State) : (startDecode s).done = false := rfl
@[simp] theorem startDecode_accepted (s : State) : (startDecode s).accepted = false := rfl
@[simp] theorem startDecode_ckok (s : State) : (startDecode s).ckok = s.ckok := rfl
@[simp] theorem startDecode_cmderr (s : State) : (startDecode s).cmderr = s.cmderr := rfl
@[simp] theorem startDecode_derr (s : State) : (startDecode s).derr = .none := rfl
@[simp] theorem startDecode_cerr (s : State) : (startDecode s).cerr = s.cerr := rfl
@[simp] theorem startDecode_pend (s : State) : (startDecode s).pend = s.pend := rfl
@[simp] theorem startDecode_snap (s : State) : (startDecode s).snap = Snapshot.zero := rfl
@[simp] theorem startDecode_shadow (s : State) : (startDecode s).shadow = Snapshot.zero := rfl
@[simp] theorem startDecode_hostOps (s : State) : (startDecode s).hostOps = s.hostOps := rfl
@[simp] theorem startDecode_hostReads (s : State) : (startDecode s).hostReads = s.hostReads := rfl
@[simp] theorem startDecode_hostTurns (s : State) : (startDecode s).hostTurns = s.hostTurns := rfl
@[simp] theorem startDecode_draws (s : State) : (startDecode s).draws = s.draws := rfl

@[simp] theorem noteRead_fbuf (k : Nat) (v : Word) (s : State) :
    (noteRead k v s).fbuf = s.fbuf := rfl
@[simp] theorem noteRead_len (k : Nat) (v : Word) (s : State) : (noteRead k v s).len = s.len := rfl
@[simp] theorem noteRead_cursor (k : Nat) (v : Word) (s : State) :
    (noteRead k v s).cursor = s.cursor := rfl
@[simp] theorem noteRead_acc (k : Nat) (v : Word) (s : State) : (noteRead k v s).acc = s.acc := rfl
@[simp] theorem noteRead_rdata (k : Nat) (v : Word) (s : State) :
    (noteRead k v s).rdata = s.rdata := rfl
@[simp] theorem noteRead_lkup (k : Nat) (v : Word) (s : State) :
    (noteRead k v s).lkup = s.lkup := rfl
@[simp] theorem noteRead_fsm (k : Nat) (v : Word) (s : State) : (noteRead k v s).fsm = s.fsm := rfl
@[simp] theorem noteRead_done (k : Nat) (v : Word) (s : State) :
    (noteRead k v s).done = s.done := rfl
@[simp] theorem noteRead_accepted (k : Nat) (v : Word) (s : State) :
    (noteRead k v s).accepted = s.accepted := rfl
@[simp] theorem noteRead_ckok (k : Nat) (v : Word) (s : State) :
    (noteRead k v s).ckok = s.ckok := rfl
@[simp] theorem noteRead_cmderr (k : Nat) (v : Word) (s : State) :
    (noteRead k v s).cmderr = s.cmderr := rfl
@[simp] theorem noteRead_derr (k : Nat) (v : Word) (s : State) :
    (noteRead k v s).derr = s.derr := rfl
@[simp] theorem noteRead_cerr (k : Nat) (v : Word) (s : State) :
    (noteRead k v s).cerr = s.cerr := rfl
@[simp] theorem noteRead_pend (k : Nat) (v : Word) (s : State) :
    (noteRead k v s).pend = s.pend := rfl
@[simp] theorem noteRead_snap (k : Nat) (v : Word) (s : State) :
    (noteRead k v s).snap = s.snap := rfl
@[simp] theorem noteRead_shadow (k : Nat) (v : Word) (s : State) :
    (noteRead k v s).shadow = s.shadow := rfl
@[simp] theorem noteRead_hostOps (k : Nat) (v : Word) (s : State) :
    (noteRead k v s).hostOps = s.hostOps := rfl
@[simp] theorem noteRead_hostReads (k : Nat) (v : Word) (s : State) :
    (noteRead k v s).hostReads = s.hostReads ++ [⟨k, v⟩] := rfl
@[simp] theorem noteRead_hostTurns (k : Nat) (v : Word) (s : State) :
    (noteRead k v s).hostTurns = s.hostTurns := rfl
@[simp] theorem noteRead_draws (k : Nat) (v : Word) (s : State) :
    (noteRead k v s).draws = s.draws := rfl

@[simp] theorem framerTurn_fbuf (s : State) : (framerTurn s).fbuf = (framerStep s).fbuf := rfl
@[simp] theorem framerTurn_len (s : State) : (framerTurn s).len = (framerStep s).len := rfl
@[simp] theorem framerTurn_cursor (s : State) : (framerTurn s).cursor = (framerStep s).cursor := rfl
@[simp] theorem framerTurn_acc (s : State) : (framerTurn s).acc = (framerStep s).acc := rfl
@[simp] theorem framerTurn_rdata (s : State) : (framerTurn s).rdata = (framerStep s).rdata := rfl
@[simp] theorem framerTurn_lkup (s : State) : (framerTurn s).lkup = (framerStep s).lkup := rfl
@[simp] theorem framerTurn_fsm (s : State) : (framerTurn s).fsm = (framerStep s).fsm := rfl
@[simp] theorem framerTurn_done (s : State) : (framerTurn s).done = (framerStep s).done := rfl
@[simp] theorem framerTurn_accepted (s : State) :
    (framerTurn s).accepted = (framerStep s).accepted := rfl
@[simp] theorem framerTurn_ckok (s : State) : (framerTurn s).ckok = (framerStep s).ckok := rfl
@[simp] theorem framerTurn_cmderr (s : State) : (framerTurn s).cmderr = (framerStep s).cmderr := rfl
@[simp] theorem framerTurn_derr (s : State) : (framerTurn s).derr = (framerStep s).derr := rfl
@[simp] theorem framerTurn_cerr (s : State) : (framerTurn s).cerr = (framerStep s).cerr := rfl
@[simp] theorem framerTurn_pend (s : State) : (framerTurn s).pend = (framerStep s).pend := rfl
@[simp] theorem framerTurn_snap (s : State) : (framerTurn s).snap = (framerStep s).snap := rfl
@[simp] theorem framerTurn_shadow (s : State) : (framerTurn s).shadow = (framerStep s).shadow := rfl
@[simp] theorem framerTurn_hostOps (s : State) :
    (framerTurn s).hostOps = (framerStep s).hostOps := rfl
@[simp] theorem framerTurn_hostReads (s : State) :
    (framerTurn s).hostReads = (framerStep s).hostReads := rfl
@[simp] theorem framerTurn_hostTurns (s : State) :
    (framerTurn s).hostTurns = Config.hostBurst s.draws := rfl
@[simp] theorem framerTurn_draws (s : State) : (framerTurn s).draws = s.draws + 1 := rfl

end Sys2Proof.Machine
end

