-- ==== Sys2Proof/Laws/Ops.lean ====
section
/-! SUPPORT. What the shared operations and the commands can do: the busy check, and one inversion
lemma for `exec`, which every claim about all commands cites. -/

namespace Sys2Proof.Machine

theorem busy_eq (s : State) : s.busy = (s.fsm.readsFields || s.fsm == .hdr || s.fsm == .cks) := by
  unfold State.busy; cases s.fsm <;> rfl

theorem busy_false_iff (s : State) :
    s.busy = false ↔ s.fsm = .idle ∨ s.fsm = .accept ∨ s.fsm = .reject := by
  unfold State.busy; cases s.fsm <;> simp

/-- BUSY depends on STATE alone (R25). -/
theorem busy_congr {s t : State} (h : s.fsm = t.fsm) : s.busy = t.busy := by
  unfold State.busy; rw [h]

@[simp] theorem busy_of_idle {s : State} (h : s.fsm = .idle) : s.busy = false := by
  simp [State.busy, h]

@[simp] theorem commandError_busy (c : ErrorCode) (s : State) : (commandError c s).busy = s.busy :=
  busy_congr rfl

@[simp] theorem reject_busy (c : ErrorCode) (p : Nat) (s : State) : (reject c p s).busy = false := rfl

@[simp] theorem accept_busy (s : State) : (accept s).busy = false := rfl

@[simp] theorem softReset_busy (s : State) : (softReset s).busy = false := rfl

@[simp] theorem startDecode_busy (s : State) : (startDecode s).busy = true := rfl

theorem whenIdle_busy {s : State} (f : State → Result) (h : s.busy = true) :
    whenIdle s f = .next (commandError .busyViolation s) := by simp [whenIdle, h]

theorem whenIdle_idle {s : State} (f : State → Result) (h : s.busy = false) :
    whenIdle s f = f s := by simp [whenIdle, h]

@[simp] theorem addressExists_iff (a : Byte) : addressExists a = true ↔ a.toNat < 200 := by
  simp [addressExists, Config.capacity]

@[simp] theorem lengthFits_iff (a : Byte) : lengthFits a = true ↔ a.toNat ≤ 200 := by
  simp [lengthFits, Config.capacity]

/-- Everything a command can do, with the command that does it. -/
inductive CommandEffect (i : Instr) (s : State) : State → Prop
  | same (is : i = .nop) : CommandEffect i s s
  | reset (is : i = .clr) : CommandEffect i s (softReset s)
  | error (c : ErrorCode) (legal : c.commandLegal = true) (some : c ≠ .none) :
      CommandEffect i s (commandError c s)
  | store (idle : s.busy = false) (a v : Byte) (is : i = .wrb a v) (bound : a.toNat < 200) :
      CommandEffect i s { s with fbuf := s.fbuf.write a.toNat v }
  | rdata (idle : s.busy = false) (v : Byte) : CommandEffect i s { s with rdata := v }
  | setLen (idle : s.busy = false) (n : Byte) (is : i = .setlen n) (bound : n.toNat ≤ 200) :
      CommandEffect i s { s with len := n }
  | push (idle : s.busy = false) (v : Byte) (is : i = .push v) (bound : s.len.toNat < 200) :
      CommandEffect i s { s with fbuf := s.fbuf.write s.len.toNat v, len := s.len + 1 }
  | acc (idle : s.busy = false) (h : Half) : CommandEffect i s { s with acc := h }
  | verify (idle : s.busy = false) (h : Half) (ok : Bool) (is : i = .verify) :
      CommandEffect i s { s with acc := h, ckok := ok }
  | sealed (idle : s.busy = false) (h : Half) (is : i = .sealOp) (bound : s.len.toNat + 2 ≤ 200) :
      CommandEffect i s
        { s with fbuf := appendTrailer s.fbuf s.len.toNat h, acc := h, len := s.len + 2 }
  | lkup (idle : s.busy = false) (l : Lkup) : CommandEffect i s { s with lkup := l }
  | decode (idle : s.busy = false) (is : i = .decode) : CommandEffect i s (startDecode s)

/-- Every command answers a next state, in every state (R122, R126). -/
theorem exec_effect (i : Instr) (s : State) : ∃ t, exec i s = .next t ∧ CommandEffect i s t := by
  cases hb : s.busy with
  | true =>
    cases i
    case nop => exact ⟨_, rfl, .same rfl⟩
    case clr => exact ⟨_, rfl, .reset rfl⟩
    all_goals
      refine ⟨commandError .busyViolation s, ?_, .error _ rfl (by decide)⟩
      exact if_pos hb
  | false =>
    cases i with
    | nop => exact ⟨_, rfl, .same rfl⟩
    | clr => exact ⟨_, rfl, .reset rfl⟩
    | wrb a b =>
      simp only [exec, execWrb, whenIdle_idle _ hb]
      split
      · rename_i h
        exact ⟨_, rfl, .store hb _ _ rfl ((addressExists_iff a).mp h)⟩
      · exact ⟨_, rfl, .error _ rfl (by decide)⟩
    | rdb a =>
      simp only [exec, execRdb, whenIdle_idle _ hb]
      split
      · exact ⟨_, rfl, .rdata hb _⟩
      · exact ⟨_, rfl, .error _ rfl (by decide)⟩
    | setlen a =>
      simp only [exec, execSetlen, whenIdle_idle _ hb]
      split
      · rename_i h
        exact ⟨_, rfl, .setLen hb _ rfl ((lengthFits_iff a).mp h)⟩
      · exact ⟨_, rfl, .error _ rfl (by decide)⟩
    | push b =>
      simp only [exec, execPush, whenIdle_idle _ hb]
      split
      · rename_i h
        exact ⟨_, rfl, .push hb _ rfl ((addressExists_iff s.len).mp h)⟩
      · exact ⟨_, rfl, .error _ rfl (by decide)⟩
    | ckclr => exact ⟨_, if_neg (by simp [hb]), .acc hb _⟩
    | ckadd b => exact ⟨_, if_neg (by simp [hb]), .acc hb _⟩
    | cksum => exact ⟨_, if_neg (by simp [hb]), .acc hb _⟩
    | verify =>
      simp only [exec, execVerify, whenIdle_idle _ hb]
      split
      · exact ⟨_, rfl, .error _ rfl (by decide)⟩
      · exact ⟨_, rfl, .verify hb _ _ rfl⟩
    | sealOp =>
      simp only [exec, execSeal, whenIdle_idle _ hb]
      split
      · exact ⟨_, rfl, .error _ rfl (by decide)⟩
      · rename_i h
        exact ⟨_, rfl, .sealed hb _ rfl (by simpa [Config.capacity] using h)⟩
    | lookup a => exact ⟨_, if_neg (by simp [hb]), .lkup hb _⟩
    | decode => exact ⟨_, if_neg (by simp [hb]), .decode hb rfl⟩

/-- Inversion of `exec`. -/
theorem exec_inv {i : Instr} {s t : State} (h : exec i s = .next t) : CommandEffect i s t := by
  obtain ⟨u, hu, he⟩ := exec_effect i s
  rw [hu] at h
  cases h
  exact he

/-- While BUSY = 1 a command is NOP, CLR or an error (R126). -/
theorem CommandEffect.busy {i : Instr} {s t : State} (h : CommandEffect i s t)
    (hb : s.busy = true) : t = s ∨ (i = .clr ∧ t = softReset s) ∨ ∃ c, t = commandError c s := by
  cases h with
  | same => exact .inl rfl
  | reset is => exact .inr (.inl ⟨is, rfl⟩)
  | error c => exact .inr (.inr ⟨c, rfl⟩)
  | _ => simp_all

/-- No command touches the host's side. -/
theorem CommandEffect.host {i : Instr} {s t : State} (h : CommandEffect i s t) :
    t.hostOps = s.hostOps ∧ t.hostReads = s.hostReads ∧ t.hostTurns = s.hostTurns ∧
      t.draws = s.draws := by
  cases h <;> simp

end Sys2Proof.Machine
end

