-- ==== Sys2Proof/Laws/Framer.lean ====
section
/-! SUPPORT. What the Framer's step can do: one inversion lemma per state of the decode machine,
what no step of it changes, and that the semantic decode keeps snapshots coherent. -/

namespace Sys2Proof.Machine

theorem framerStep_hdr {s : State} (h : s.fsm = .hdr) : framerStep s = framerHdr s := by
  unfold framerStep; rw [h]

theorem framerStep_cks {s : State} (h : s.fsm = .cks) : framerStep s = framerCks s := by
  unfold framerStep; rw [h]

theorem framerStep_idn {s : State} (h : s.fsm = .idn) : framerStep s = framerIdn s := by
  unfold framerStep; rw [h]

theorem framerStep_fun {s : State} (h : s.fsm = .fn) : framerStep s = framerFun s := by
  unfold framerStep; rw [h]

theorem framerStep_par {s : State} (h : s.fsm = .par) : framerStep s = framerPar s := by
  unfold framerStep; rw [h]

/-- HDR (R104). -/
theorem framerHdr_cases (s : State) :
    (s.len.toNat < 3 ∧ framerHdr s = reject .truncatedBuffer 0 s) ∨
    (3 ≤ s.len.toNat ∧ ¬ headerAt s.fbuf ∧ framerHdr s = reject .headerInvalid 0 s) ∨
    (3 ≤ s.len.toNat ∧ headerAt s.fbuf ∧ framerHdr s = { s with cursor := 3, fsm := .cks }) := by
  unfold framerHdr headerAt
  by_cases h₁ : s.len.toNat < 3
  · exact .inl ⟨h₁, if_pos h₁⟩
  · rw [if_neg h₁]
    by_cases h₂ : s.fbuf.read 0 ≠ 0xFD ∨ s.fbuf.read 1 ≠ 0xFD ∨ s.fbuf.read 2 ≠ 0x02
    · exact .inr (.inl ⟨by omega, by tauto, if_pos h₂⟩)
    · exact .inr (.inr ⟨by omega, by tauto, if_neg h₂⟩)

/-- CKS (R105). -/
theorem framerCks_cases (s : State) :
    (s.len.toNat < 4 ∧ framerCks s = reject .truncatedBuffer 0 s) ∨
    (4 ≤ s.len.toNat ∧ sum16 s.fbuf 2 (s.len.toNat - 2) ≠ trailer s.fbuf s.len.toNat ∧
      framerCks s = reject .checksumMismatch 0
        { s with acc := sum16 s.fbuf 2 (s.len.toNat - 2) }) ∨
    (4 ≤ s.len.toNat ∧ sum16 s.fbuf 2 (s.len.toNat - 2) = trailer s.fbuf s.len.toNat ∧
      framerCks s = { s with
        acc := sum16 s.fbuf 2 (s.len.toNat - 2), pend := s.len - 2, fsm := .idn }) := by
  unfold framerCks
  by_cases h₁ : s.len.toNat < 4
  · exact .inl ⟨h₁, if_pos h₁⟩
  · rw [if_neg h₁]
    by_cases h₂ : sum16 s.fbuf 2 (s.len.toNat - 2) ≠ trailer s.fbuf s.len.toNat
    · exact .inr (.inl ⟨by omega, h₂, if_pos h₂⟩)
    · exact .inr (.inr ⟨by omega, by simpa using h₂, if_neg h₂⟩)

/-- IDN (R106): either a length byte or a string passes PEND, and the read that does is rejected,
or both strings fit. -/
theorem framerIdn_cases (s : State) :
    (∃ pos, s.cursor.toNat ≤ pos ∧ (s.cursor.toNat ≤ s.pend.toNat → pos ≤ s.pend.toNat) ∧
      framerIdn s = reject .truncatedBuffer pos s) ∨
    (∃ n m, n = (s.fbuf.read s.cursor.toNat).toNat ∧
      m = (s.fbuf.read (s.cursor.toNat + 1 + n)).toNat ∧
      s.cursor.toNat + 1 + n + 1 + m ≤ s.pend.toNat ∧
      framerIdn s = { s with
        shadow := storeIdent (s.cursor.toNat + 1) n (s.cursor.toNat + 1 + n + 1) m s.shadow
        cursor := BitVec.ofNat 8 (s.cursor.toNat + 1 + n + 1 + m)
        fsm := .fn }) := by
  unfold framerIdn
  dsimp only
  split
  · exact .inl ⟨_, le_refl _, fun h => h, rfl⟩
  · split
    · exact .inl ⟨_, by omega, fun _ => by omega, rfl⟩
    · split
      · exact .inl ⟨_, by omega, fun _ => by omega, rfl⟩
      · split
        · exact .inl ⟨_, by omega, fun _ => by omega, rfl⟩
        · exact .inr ⟨_, _, rfl, rfl, by omega, rfl⟩

/-- FUN (R107). -/
theorem framerFun_cases (s : State) :
    (s.pend.toNat ≤ s.cursor.toNat ∧
      framerFun s = reject .truncatedBuffer s.cursor.toNat s) ∨
    (s.cursor.toNat < s.pend.toNat ∧ s.fbuf.read s.cursor.toNat ≠ responseCode ∧
      framerFun s = reject .unexpectedFunction s.cursor.toNat s) ∨
    (s.cursor.toNat < s.pend.toNat ∧ s.fbuf.read s.cursor.toNat = responseCode ∧
      framerFun s = { s with cursor := BitVec.ofNat 8 (s.cursor.toNat + 1), fsm := .par }) := by
  unfold framerFun
  dsimp only
  split
  · exact .inl ⟨by omega, rfl⟩
  · split
    · exact .inr (.inl ⟨by omega, ‹_›, rfl⟩)
    · exact .inr (.inr ⟨by omega, not_not.mp ‹_›, rfl⟩)

/-- The end of a PAR step (R108). -/
theorem takeParameter_cases (real : Byte) (w p : Nat) (s : State) :
    (s.pend.toNat < p + w ∧ takeParameter real w p s = reject .truncatedBuffer p s) ∨
    (p + w ≤ s.pend.toNat ∧ takeParameter real w p s = { s with
      shadow := semantic real w (payloadAt s.fbuf p) s.shadow
      cursor := BitVec.ofNat 8 (p + w) }) := by
  unfold takeParameter
  split
  · exact .inl ⟨by omega, rfl⟩
  · exact .inr ⟨by omega, rfl⟩

/-- PAR (R108): it accepts, it rejects at an offset up to PEND, or it takes one parameter and
moves CURSOR forward. -/
theorem framerPar_cases (s : State) (hc : s.cursor.toNat ≤ s.pend.toNat) :
    (s.cursor.toNat = s.pend.toNat ∧ framerPar s = accept s) ∨
    (s.cursor.toNat < s.pend.toNat ∧ ∃ code pos, (code = .truncatedBuffer ∨ code = .unknownParameter) ∧
      pos ≤ s.pend.toNat ∧ framerPar s = reject code pos s) ∨
    (∃ real w p, s.cursor.toNat < p ∧ p + w ≤ s.pend.toNat ∧
      framerPar s = { s with
        shadow := semantic real w (payloadAt s.fbuf p) s.shadow
        cursor := BitVec.ofNat 8 (p + w) }) := by
  unfold framerPar
  dsimp only
  split
  · exact .inl ⟨‹_›, rfl⟩
  · split
    · split
      · exact .inr (.inl ⟨by omega, _, _, .inl rfl, by omega, rfl⟩)
      · split
        · exact .inr (.inl ⟨by omega, _, _, .inl rfl, by omega, rfl⟩)
        · obtain ⟨h₁, h₂⟩ | ⟨h₁, h₂⟩ := takeParameter_cases
            (s.fbuf.read (s.cursor.toNat + 2)) (s.fbuf.read (s.cursor.toNat + 1)).toNat
            (s.cursor.toNat + 3) s
          · exact .inr (.inl ⟨by omega, _, _, .inl rfl, by omega, h₂⟩)
          · exact .inr (.inr ⟨_, _, _, by omega, h₁, h₂⟩)
    · split
      · exact .inr (.inl ⟨by omega, _, _, .inr rfl, by omega, rfl⟩)
      · rename_i w _
        obtain ⟨h₁, h₂⟩ | ⟨h₁, h₂⟩ := takeParameter_cases
          (s.fbuf.read s.cursor.toNat) w.toNat (s.cursor.toNat + 1) s
        · exact .inr (.inl ⟨by omega, _, _, .inl rfl, by omega, h₂⟩)
        · exact .inr (.inr ⟨_, _, _, by omega, h₁, h₂⟩)

/-- What no Framer step changes (R119): FBUF, LEN, RDATA, LKUP, CKOK, CMDERR, CERR and the host's
side. -/
structure FramerKeeps (s t : State) : Prop where
  fbuf : t.fbuf = s.fbuf
  len : t.len = s.len
  rdata : t.rdata = s.rdata
  lkup : t.lkup = s.lkup
  ckok : t.ckok = s.ckok
  cmderr : t.cmderr = s.cmderr
  cerr : t.cerr = s.cerr
  hostOps : t.hostOps = s.hostOps
  hostReads : t.hostReads = s.hostReads
  hostTurns : t.hostTurns = s.hostTurns
  draws : t.draws = s.draws

theorem takeParameter_keeps (real : Byte) (w p : Nat) (s : State) :
    FramerKeeps s (takeParameter real w p s) := by
  obtain ⟨_, h⟩ | ⟨_, h⟩ := takeParameter_cases real w p s <;> rw [h] <;> constructor <;> rfl

theorem framerPar_keeps (s : State) : FramerKeeps s (framerPar s) := by
  unfold framerPar
  dsimp only
  split
  · constructor <;> rfl
  · split
    · split
      · constructor <;> rfl
      · split
        · constructor <;> rfl
        · exact takeParameter_keeps _ _ _ s
    · split
      · constructor <;> rfl
      · exact takeParameter_keeps _ _ _ s

theorem framerStep_keeps (s : State) : FramerKeeps s (framerStep s) := by
  unfold framerStep
  split
  · obtain ⟨_, h⟩ | ⟨_, _, h⟩ | ⟨_, _, h⟩ := framerHdr_cases s <;> rw [h] <;> constructor <;> rfl
  · obtain ⟨_, h⟩ | ⟨_, _, h⟩ | ⟨_, _, h⟩ := framerCks_cases s <;> rw [h] <;> constructor <;> rfl
  · obtain ⟨_, _, _, h⟩ | ⟨_, _, _, _, _, h⟩ := framerIdn_cases s <;> rw [h] <;> constructor <;> rfl
  · obtain ⟨_, h⟩ | ⟨_, _, h⟩ | ⟨_, _, h⟩ := framerFun_cases s <;> rw [h] <;> constructor <;> rfl
  · exact framerPar_keeps s
  all_goals constructor <;> rfl

/-- What a Framer step does to the outcome: it accepts, from PAR at CURSOR = PEND, it rejects, or
the decode goes on with the committed snapshot as it was. -/
inductive FramerOutcome (s : State) : State → Prop
  | accepts (par : s.fsm = .par) (atEnd : s.cursor.toNat = s.pend.toNat) :
      FramerOutcome s (accept s)
  | rejects (code : ErrorCode) (pos : Nat) (h : Half) (legal : code ≠ .none) :
      FramerOutcome s (reject code pos { s with acc := h })
  | goesOn {t : State} (busy : t.busy = true) (snap : t.snap = s.snap) : FramerOutcome s t

theorem FramerOutcome.reject' (s : State) (code : ErrorCode) (pos : Nat) (h : code ≠ .none) :
    FramerOutcome s (Machine.reject code pos s) := .rejects code pos s.acc h

theorem framerStep_outcome {s : State} (hb : s.busy = true) : FramerOutcome s (framerStep s) := by
  unfold framerStep
  split
  · obtain ⟨_, h⟩ | ⟨_, _, h⟩ | ⟨_, _, h⟩ := framerHdr_cases s <;> rw [h]
    · exact .reject' _ _ _ (by simp)
    · exact .reject' _ _ _ (by simp)
    · exact .goesOn rfl rfl
  · obtain ⟨_, h⟩ | ⟨_, _, h⟩ | ⟨_, _, h⟩ := framerCks_cases s <;> rw [h]
    · exact .reject' _ _ _ (by simp)
    · exact .rejects _ _ _ (by simp)
    · exact .goesOn rfl rfl
  · obtain ⟨_, _, _, h⟩ | ⟨_, _, _, _, _, h⟩ := framerIdn_cases s <;> rw [h]
    · exact .reject' _ _ _ (by simp)
    · exact .goesOn rfl rfl
  · obtain ⟨_, h⟩ | ⟨_, _, h⟩ | ⟨_, _, h⟩ := framerFun_cases s <;> rw [h]
    · exact .reject' _ _ _ (by simp)
    · exact .reject' _ _ _ (by simp)
    · exact .goesOn rfl rfl
  · rename_i hp
    have take (r : Byte) (w p : Nat) : FramerOutcome s (takeParameter r w p s) := by
      obtain ⟨_, h⟩ | ⟨_, h⟩ := takeParameter_cases r w p s <;> rw [h]
      · exact .reject' _ _ _ (by simp)
      · exact .goesOn (by rw [State.busy, hp]) rfl
    unfold framerPar
    dsimp only
    split
    · exact .accepts hp ‹_›
    · split
      · split
        · exact .reject' _ _ _ (by simp)
        · split
          · exact .reject' _ _ _ (by simp)
          · exact take _ _ _
      · split
        · exact .reject' _ _ _ (by simp)
        · exact take _ _ _
  all_goals rename_i h; rw [State.busy, h] at hb; cases hb

theorem framerRun_succ (k : Nat) (s : State) :
    framerRun (k + 1) s = if s.busy then framerRun k (framerStep s) else s := rfl

/-- A run of Framer steps stops when BUSY = 0. -/
theorem framerRun_idle (k : Nat) (s : State) (h : s.busy = false) : framerRun k s = s := by
  cases k with
  | zero => rfl
  | succ k => simp [framerRun, h]

theorem framerRun_keeps (k : Nat) (s : State) : FramerKeeps s (framerRun k s) := by
  induction k generalizing s with
  | zero => constructor <;> rfl
  | succ k ih =>
    rw [framerRun_succ]
    split
    · have a := framerStep_keeps s
      have b := ih (framerStep s)
      exact ⟨b.fbuf.trans a.fbuf, b.len.trans a.len, b.rdata.trans a.rdata, b.lkup.trans a.lkup,
        b.ckok.trans a.ckok, b.cmderr.trans a.cmderr, b.cerr.trans a.cerr,
        b.hostOps.trans a.hostOps, b.hostReads.trans a.hostReads, b.hostTurns.trans a.hostTurns,
        b.draws.trans a.draws⟩
    · constructor <;> rfl

/-! VALID bits and coherence. -/

theorem has_congr {n x : Snapshot} (h : n.valid = x.valid) (i : Nat) : n.has i = x.has i := by
  simp [Snapshot.has, h]

theorem has_of_setValid {n : Snapshot} {k : Nat} {v : BitVec 9} (h : n.valid = setValid k v)
    (i : Nat) : n.has i = (v.getLsbD i || (decide (i < 9) && decide (k = i))) := by
  rw [Snapshot.has, h, setValid, BitVec.getLsbD_or, BitVec.getLsbD_twoPow]
  congr 1
  by_cases hi : i < 9 <;> by_cases hk : k = i <;> simp [hi, hk]

@[simp] theorem storeAttr_has (a : Attr) (b : Nat → Byte) (n : Snapshot) (i : Nat) :
    (storeAttr a b n).has i = (n.has i || (decide (i < 9) && decide (validBit a = i))) :=
  has_of_setValid rfl i

@[simp] theorem storeIdent_has (o l p m : Nat) (n : Snapshot) (i : Nat) :
    (storeIdent o l p m n).has i = (n.has i || (decide (i < 9) && decide (8 = i))) :=
  has_of_setValid rfl i

theorem Snapshot.coherent_zero : Snapshot.zero.Coherent := by
  constructor <;> simp [Snapshot.zero]

theorem storeAttr_coherent (a : Attr) (b : Nat → Byte) (n : Snapshot) (h : n.Coherent) :
    (storeAttr a b n).Coherent := by
  obtain ⟨h0, h1, h2, h3, h4, h5, h6, h7, h8, h9⟩ := h
  cases a <;> constructor <;> (try simp only [storeAttr_has, validBit]) <;>
    simp [storeAttr, storeField]
  case onOff.onOffBool => exact em _
  all_goals assumption

theorem semantic_cases (real : Byte) (w : Nat) (b : Nat → Byte) (n : Snapshot) :
    semantic real w b n = n ∨
    ∃ a, attrOfCode real = some a ∧ w = semanticWidth a ∧ semantic real w b n = storeAttr a b n := by
  unfold semantic
  split
  · split
    · exact .inr ⟨_, ‹_›, ‹_›, rfl⟩
    · exact .inl rfl
  · exact .inl rfl

theorem semantic_coherent (real : Byte) (w : Nat) (b : Nat → Byte) (n : Snapshot)
    (h : n.Coherent) : (semantic real w b n).Coherent := by
  obtain e | ⟨a, _, _, e⟩ := semantic_cases real w b n <;> rw [e]
  · exact h
  · exact storeAttr_coherent a b n h

theorem storeIdent_coherent (i n p m : Nat) (x : Snapshot) (h : x.Coherent) :
    (storeIdent i n p m x).Coherent := by
  obtain ⟨h0, h1, h2, h3, h4, h5, h6, h7, h8, h9⟩ := h
  constructor <;> (try simp only [storeIdent_has]) <;> simp [storeIdent]
  all_goals assumption

/-- A second write of an attribute overwrites the first (R114). -/
theorem storeAttr_same (a : Attr) (b c : Nat → Byte) (n : Snapshot) :
    storeAttr a c (storeAttr a b n) = storeAttr a c n := by
  cases a <;> simp [storeAttr, storeField, setValid, BitVec.or_assoc]

theorem setValid_comm (i k : Nat) (v : BitVec 9) :
    setValid i (setValid k v) = setValid k (setValid i v) := by
  simp only [setValid, BitVec.or_assoc, BitVec.or_comm (BitVec.twoPow 9 i)]

/-- Two attributes share no field. -/
theorem storeAttr_comm {a d : Attr} (h : a ≠ d) (b c : Nat → Byte) (n : Snapshot) :
    storeAttr a b (storeAttr d c n) = storeAttr d c (storeAttr a b n) := by
  cases a <;> cases d <;> first
    | exact absurd rfl h
    | (simp only [storeAttr, storeField]; rw [setValid_comm])

/-- A stream is folded item by item, each through the semantic decode. -/
theorem foldStream_cons (i : StreamItem) (is : List StreamItem) (n : Snapshot) :
    foldStream (i :: is) n =
      foldStream is (semantic i.code i.payload.length (fun k => i.payload.getD k 0) n) := by
  cases i <;> rfl

theorem foldStream_append (is js : List StreamItem) (n : Snapshot) :
    foldStream (is ++ js) n = foldStream js (foldStream is n) := by
  induction is generalizing n with
  | nil => rfl
  | cons i is ih => rw [List.cons_append, foldStream_cons, foldStream_cons, ih]

/-- No parameter touches the identity fields. -/
theorem storeAttr_ident (a : Attr) (b : Nat → Byte) (n : Snapshot) :
    (storeAttr a b n).has 8 = n.has 8 ∧ (storeAttr a b n).idOff = n.idOff ∧
    (storeAttr a b n).idLen = n.idLen ∧ (storeAttr a b n).pwOff = n.pwOff ∧
    (storeAttr a b n).pwLen = n.pwLen := by
  refine ⟨by cases a <;> simp [validBit], ?_⟩
  cases a <;> exact ⟨rfl, rfl, rfl, rfl⟩

theorem semantic_ident (real : Byte) (w : Nat) (b : Nat → Byte) (n : Snapshot) :
    (semantic real w b n).has 8 = n.has 8 ∧
    (semantic real w b n).idOff = n.idOff ∧ (semantic real w b n).idLen = n.idLen ∧
    (semantic real w b n).pwOff = n.pwOff ∧ (semantic real w b n).pwLen = n.pwLen := by
  obtain e | ⟨a, _, _, e⟩ := semantic_cases real w b n <;> rw [e]
  · simp
  · exact storeAttr_ident a b n

/-- W_UNIT_TYPE is 1 or 2 (R9). -/
theorem unitTypeWidth_cases : unitTypeWidth = 1 ∨ unitTypeWidth = 2 := by
  unfold unitTypeWidth; split <;> simp

/-- The semantic decode reads only the payload's bytes. -/
theorem semantic_congr (real : Byte) (w : Nat) {b c : Nat → Byte} (n : Snapshot)
    (h : ∀ i, i < w → b i = c i) : semantic real w b n = semantic real w c n := by
  unfold semantic
  split
  · rename_i a _
    split
    · rename_i hw
      subst hw
      cases a
      case unitType =>
        have : 0 < semanticWidth .unitType := by
          simp only [semanticWidth]
          obtain e | e := unitTypeWidth_cases <;> simp [e]
        simp [storeAttr, storeField, h 0 this]
      all_goals
        simp only [semanticWidth] at h
        simp [storeAttr, storeField, h]
    · rfl
  · rfl

/-! The catalog. -/

/-- The eight entries of R81 are CATALOG's. -/
theorem catalog_fixed {c w : Byte} (h : fixedWidth c = some w) : catalog c = some w := by
  simp [catalog, h]

theorem openCodes_length : openCodes.length = 247 := by decide +kernel

theorem wifiName_mem : wifiName ∈ openCodes := by
  have h : Config.wifiNameIndex % openCodes.length < openCodes.length :=
    Nat.mod_lt _ (by rw [openCodes_length]; omega)
  rw [wifiName, List.getD_eq_getElem _ _ h]
  exact List.getElem_mem h

theorem wifiPassword_mem : wifiPassword ∈ openCodes := by
  have h : Config.wifiPasswordIndex % openCodes.length < openCodes.length :=
    Nat.mod_lt _ (by rw [openCodes_length]; omega)
  rw [wifiPassword, List.getD_eq_getElem _ _ h]
  exact List.getElem_mem h

theorem openCodes_spec {c : Byte} (h : c ∈ openCodes) : fixedWidth c = none ∧ c ≠ escapeCode := by
  simpa [openCodes] using (List.mem_filter.mp h).2

/-- The wifi parameters have catalog width 0 (R82). -/
theorem catalog_wifiName : catalog wifiName = some 0 := by
  simp [catalog, (openCodes_spec wifiName_mem).1]

theorem catalog_wifiPassword : catalog wifiPassword = some 0 := by
  simp [catalog, (openCodes_spec wifiPassword_mem).1]

end Sys2Proof.Machine
end

