-- ==== Sys2Proof/Laws/PerInstr.lean ====
section
/-! SUPPORT. Per-instruction families. MaskMatch: a command's word has its table row's fixed bits
(R60). -/

namespace Sys2Proof

/-- The mask of a row with both operands keeps OP and RSV. -/
theorem commandWord_mask_ab (op a b : Byte) :
    commandWord op a b &&& 0xFFFF0000#32 = commandWord op 0 0 := by
  apply BitVec.eq_of_getLsbD_eq
  intro i hi
  simp only [commandWord, BitVec.getLsbD_and, BitVec.getLsbD_append]
  interval_cases i <;> simp

/-- The mask of a row with operand A alone keeps OP, RSV and B. -/
theorem commandWord_mask_a (op a : Byte) :
    commandWord op a 0 &&& 0xFFFF00FF#32 = commandWord op 0 0 := by
  apply BitVec.eq_of_getLsbD_eq
  intro i hi
  simp only [commandWord, BitVec.getLsbD_and, BitVec.getLsbD_append]
  interval_cases i <;> simp

/-- The mask of a row with operand B alone keeps OP, RSV and A. -/
theorem commandWord_mask_b (op b : Byte) :
    commandWord op 0 b &&& 0xFFFFFF00#32 = commandWord op 0 0 := by
  apply BitVec.eq_of_getLsbD_eq
  intro i hi
  simp only [commandWord, BitVec.getLsbD_and, BitVec.getLsbD_append]
  interval_cases i <;> simp

end Sys2Proof

namespace Sys2Proof.Laws.MaskMatch

/-- The word of `i`, under its row's mask, is the row's match. -/
def Statement (i : Instr) : Prop := encode i &&& i.row.mask = i.row.matchBits

theorem nop : Statement .nop := rfl
theorem clr : Statement .clr := rfl
theorem wrb (a b : Byte) : Statement (.wrb a b) := commandWord_mask_ab 0x02 a b
theorem rdb (a : Byte) : Statement (.rdb a) := commandWord_mask_a 0x03 a
theorem setlen (a : Byte) : Statement (.setlen a) := commandWord_mask_a 0x04 a
theorem push (b : Byte) : Statement (.push b) := commandWord_mask_b 0x05 b
theorem ckclr : Statement .ckclr := rfl
theorem ckadd (b : Byte) : Statement (.ckadd b) := commandWord_mask_b 0x07 b
theorem cksum : Statement .cksum := rfl
theorem verify : Statement .verify := rfl
theorem sealOp : Statement .sealOp := rfl
theorem lookup (a : Byte) : Statement (.lookup a) := commandWord_mask_a 0x0B a
theorem decode : Statement .decode := rfl

end Sys2Proof.Laws.MaskMatch
end

