-- ==== Sys2Proof/Laws/Step.lean ====
section
/-! SUPPORT. What a step can do, and that a step runs the command word it is given. -/

namespace Sys2Proof.Machine

/-- Everything a word written to CMD can do: an ILLEGAL_COMMAND command error or the decoded
command's effect. -/
inductive WordEffect (w : Word) (s : State) : State → Prop
  | command (i : Instr) {t : State} (decodes : decode w = .ok i) (effect : CommandEffect i s t) :
      WordEffect w s t
  | illegal : WordEffect w s (commandError .illegalCommand s)

theorem runCommand_inv {w : Word} {s t : State} (h : runCommand w s = .next t) :
    WordEffect w s t := by
  unfold runCommand at h
  split at h
  · exact .command _ ‹_› (exec_inv h)
  · cases h; exact .illegal

/-- Everything a host access can do, from the state in which its operation has been taken. -/
inductive HostEffect (op : HostOp) (s : State) : State → Prop
  | command (w : Word) {t : State} (is : op = commandOp w) (effect : WordEffect w s t) :
      HostEffect op s t
  | ignored : HostEffect op s s
  | noted (k : Nat) (v : Word) : HostEffect op s (noteRead k v s)
  | polling (k : Nat) (v : Word) :
      HostEffect op s { noteRead k v s with hostOps := .wait k :: s.hostOps }

theorem Access.eq_wordAt {acc : Access} {off : Nat} (h : acc.legal = true) (ho : acc.off = off) :
    acc = wordAt off := by
  simp only [Access.legal, Bool.and_eq_true, decide_eq_true_eq] at h
  obtain ⟨b, o⟩ := acc
  simp_all [wordAt]

theorem hostAccess_inv {op : HostOp} {s t : State} (h : hostAccess op s = .next t) :
    HostEffect op s t := by
  cases op with
  | write acc v =>
    simp only [hostAccess, hostWrite] at h
    split at h
    · cases h
    · rename_i hl
      split at h
      · rename_i ho
        refine .command v ?_ (runCommand_inv h)
        rw [commandOp, Access.eq_wordAt (by simpa using hl) ho]
      · cases h; exact .ignored
  | read acc k =>
    simp only [hostAccess, hostRead] at h
    split at h
    · cases h
    · cases h; exact .noted _ _
  | wait k =>
    simp only [hostAccess, hostPoll] at h
    split at h
    · cases h; exact .noted _ _
    · cases h; exact .polling _ _

/-- Everything a step can do: a host access, or the Framer's step while BUSY = 1. -/
inductive StepEffect (s : State) : State → Prop
  | host (op : HostOp) (ops : List HostOp) (k : Nat) {t : State} (taken : s.hostOps = op :: ops)
      (turns : k ≤ s.hostTurns) (effect : HostEffect op { s with hostOps := ops, hostTurns := k } t) :
      StepEffect s t
  | framer (busy : s.busy = true) : StepEffect s (framerTurn s)

/-- Inversion of the step. -/
theorem step_inv {s t : State} (h : step s = .next t) : StepEffect s t := by
  simp only [step, advance] at h
  split at h
  · rename_i ho hk
    exact .host _ _ _ ho (by omega) (hostAccess_inv h)
  · cases h; exact .framer ‹_›
  · rename_i ho
    exact .host _ _ s.hostTurns ho (le_refl _) (hostAccess_inv h)
  · cases h

/-- A host access answers a next state or does not exist (R40). -/
theorem hostAccess_outcome (op : HostOp) (s : State) :
    (∃ t, hostAccess op s = .next t) ∨ hostAccess op s = .refused .hostAccess := by
  cases op with
  | write acc v =>
    simp only [hostAccess, hostWrite]
    split
    · exact .inr rfl
    · split
      · unfold runCommand
        split
        · rename_i i _
          obtain ⟨t, h, _⟩ := exec_effect i s
          exact .inl ⟨t, h⟩
        · exact .inl ⟨_, rfl⟩
      · exact .inl ⟨_, rfl⟩
  | read acc k =>
    simp only [hostAccess, hostRead]
    split
    · exact .inr rfl
    · exact .inl ⟨_, rfl⟩
  | wait k =>
    simp only [hostAccess, hostPoll]
    split <;> exact .inl ⟨_, rfl⟩

/-- The Framer's turn: BUSY = 1 and the host has no operation or no access left. -/
theorem advance_framer {s : State} (hb : s.busy = true) (h : s.hostOps = [] ∨ s.hostTurns = 0) :
    advance s = .next (framerTurn s) := by
  unfold advance
  rcases h with h | h <;> rw [hb, h]
  cases s.hostOps <;> rfl

/-- The host's turn while BUSY = 1. -/
theorem advance_host_busy {s : State} {op : HostOp} {ops : List HostOp} {k : Nat}
    (hb : s.busy = true) (ho : s.hostOps = op :: ops) (hk : s.hostTurns = k + 1) :
    advance s = hostAccess op { s with hostOps := ops, hostTurns := k } := by
  simp only [advance, hb, ho, hk]

/-- The host's turn while BUSY = 0. -/
theorem advance_host_idle {s : State} {op : HostOp} {ops : List HostOp}
    (hb : s.busy = false) (ho : s.hostOps = op :: ops) :
    advance s = hostAccess op { s with hostOps := ops } := by
  simp only [advance, hb, ho]

/-- The command word placed as the host's next operation is the one the next step runs. -/
theorem advance_withCommand (w : Word) (s : State) : advance (withCommand w s) = runCommand w s := by
  have hb : (withCommand w s).busy = s.busy := busy_congr rfl
  unfold advance
  rw [hb]
  cases h : s.busy <;>
    simp [withCommand, h, hostAccess, hostWrite, commandOp, wordAt, Access.legal, regOffset]

theorem tableWord_toNat (w : Word) : tableWord 32 w.toNat = w := by
  rw [tableWord, Nat.mod_eq_of_lt w.isLt, BitVec.ofNat_toNat, BitVec.setWidth_eq]

end Sys2Proof.Machine
end

