-- ==== Sys2Proof/Tests/Slice0.lean ====
section
/-! SUPPORT. The model's own tests: the smoke test of WellFormed, a word written out for every
command, single steps whose results are those of spec 95 (the table and line are named), and for
every obligation with hypotheses a witness that meets them. -/

namespace Sys2Proof.Tests

open Sys2Proof Sys2Proof.Machine

/-! ## Helpers -/

/-- The next state of a result. -/
def nextOf (r : Result) : Option State :=
  match r with
  | .next s => some s
  | .fault _ => none
  | .refused _ => none

/-- What a command leaves, seen through `f`. -/
def after {α : Type} (i : Instr) (s : State) (f : State → α) : Option α := (nextOf (exec i s)).map f

/-- The reset state with an empty listing of FBUF. -/
def blank : State := { State.reset with fbuf := [], hostTurns := 0 }

/-- The frame `bs` from address 0 on, LEN its length. -/
def frameState (bs : List Byte) : State :=
  { blank with fbuf := (List.range bs.length).zip bs, len := BitVec.ofNat 8 bs.length }

/-- A state with LEN set. -/
def lenState (n : Byte) : State := { blank with len := n }

/-- A decode in state `f` over the frame `bs`. -/
def decodingState (f : FramerState) (cursor pend : Byte) (bs : List Byte) : State :=
  { frameState bs with fsm := f, cursor := cursor, pend := pend }

/-- The frame of W5 (spec 95). -/
def w5 : List Byte := [0xFD, 0xFD, 0x02, 0x00, 0x00, 0x06, 0x2E, 0x37, 0x6D, 0x00]

def status (s : State) : Word := readReg .status s

/-- Whether the decoder refuses a word, and why. -/
def refusal (w : Word) : Option DecodeError :=
  match decode w with
  | .ok _ => none
  | .error e => some e

/-- The command a word decodes to. -/
def decoded (w : Word) : Option Instr :=
  match decode w with
  | .ok i => some i
  | .error _ => none

/-! ## WellFormed: each check refuses an ill-formed term -/

/-- OP 0x0D, RSV = 1, an unused A, an unused B (spec 95, 2.3). -/
theorem test_legalWord_refuses :
    legalWord 0x0D000000#32 = false ∧ legalWord 0x05010001#32 = false ∧
    legalWord 0x05000101#32 = false ∧ legalWord 0x00000001#32 = false := by decide

theorem test_decode_refuses_by_name :
    refusal 0x0D000000#32 = some .illegalOpcode ∧
    refusal 0x05010001#32 = some .reservedNonzero ∧
    refusal 0x05000101#32 = some .unusedOperandNonzero ∧
    refusal 0x00000001#32 = some .unusedOperandNonzero := by decide

/-- A row that is none of the table's is refused. -/
theorem test_row_refused :
    opcodeTable.contains ⟨"NOP", 0x0D000000#32, 0xFFFFFFFF#32⟩ = false := by decide

/-- No word fits two rows: two rows differ on a bit both masks fix. -/
theorem test_rows_disjoint :
    opcodeTable.Pairwise fun r q =>
      r.matchBits &&& (r.mask &&& q.mask) ≠ q.matchBits &&& (r.mask &&& q.mask) := by decide

/-- R40: a 16-bit access, an unaligned one, one past 0xFC. -/
theorem test_access_refused :
    (Access.mk 2 0x08).legal = false ∧ (Access.mk 4 0x06).legal = false ∧
    (Access.mk 4 0x100).legal = false ∧ (wordAt 0xFC).legal = true := by decide

/-- R40, R64: an access that does not exist, and a string of 256 bytes. -/
theorem test_asmLine_refused :
    (AsmLine.write 0x100 0).wf = false ∧ (AsmLine.read 0x02 0).wf = false ∧
    (AsmLine.pushStr (List.replicate 256 0)).wf = false :=
  ⟨rfl, rfl, by rw [AsmLine.wf, List.length_replicate]; decide⟩

/-! ## A word written out for every command (spec 95, 2.1 to 2.3 and 3) -/

theorem test_word_nop : decoded 0x00000000#32 = some .nop := by decide
theorem test_word_clr : decoded 0x01000000#32 = some .clr := by decide
theorem test_word_wrb : decoded 0x0200C701#32 = some (.wrb 199 1) := by decide
theorem test_word_rdb : decoded 0x03000200#32 = some (.rdb 2) := by decide
theorem test_word_setlen : decoded 0x0400C800#32 = some (.setlen 200) := by decide
theorem test_word_push : decoded 0x050000FD#32 = some (.push 0xFD) := by decide
theorem test_word_ckclr : decoded 0x06000000#32 = some .ckclr := by decide
theorem test_word_ckadd : decoded 0x07000002#32 = some (.ckadd 2) := by decide
theorem test_word_cksum : decoded 0x08000000#32 = some .cksum := by decide
theorem test_word_verify : decoded 0x09000000#32 = some .verify := by decide
theorem test_word_seal : decoded 0x0A000000#32 = some .sealOp := by decide
theorem test_word_lookup : decoded 0x0B007C00#32 = some (.lookup 0x7C) := by decide
theorem test_word_decode : decoded 0x0C000000#32 = some .decode := by decide

/-- The table's numbering is the word's own (R58); a narrower row has its upper bits 0. -/
theorem test_tableWord :
    decodeTableWord 32 0x0200C701 = some (.wrb 199 1) ∧ decodeTableWord 32 0x0D000000 = none ∧
    decodeTableWord 16 0x0200C701 = none := by decide

/-- `withFetchWord` makes the very next step run the word, from reset and while BUSY = 1. -/
theorem test_withFetchWord :
    (nextOf (step (State.reset.withFetchWord 32 0x0400C800))).map State.len = some 200 ∧
    (nextOf (step ((decodingState .hdr 0 0 w5).withFetchWord 32 0x0400C800))).map status =
      some 0x8083#32 := by decide

/-! ## Commands (spec 95, 2.1 to 2.3) -/

theorem test_nop : after .nop blank id = some blank := by decide

/-- While BUSY = 1 too (R96). -/
theorem test_nop_busy :
    after .nop (decodingState .par 6 8 w5) id = some (decodingState .par 6 8 w5) := by decide

/-- STATUS = 0x70BC before, every register 0 and FBUF as it was after. -/
theorem test_clr :
    let s := { frameState w5 with
      fsm := .accept, done := true, accepted := true, cmderr := true, cerr := .illegalCommand,
      snap := { Snapshot.zero with valid := 0x110, humidity := 55 }, acc := 0x6D, cursor := 8 }
    status s = 0x70BC#32 ∧ after .clr s (fun t => (status t, t.fbuf, t.len, t.acc, t.snap)) =
      some (0, s.fbuf, 0, 0, Snapshot.zero) := by decide

/-- CLR aborts a running decode (R97; P6). -/
theorem test_clr_aborts :
    after .clr (decodingState .idn 3 8 w5) (fun t => (t.fsm, t.cursor, t.pend)) =
      some (.idle, 0, 0) := by decide

theorem test_wrb :
    after (.wrb 199 1) blank (fun t => (t.fbuf, t.len)) = some ([(199, 1)], 0) := by decide

theorem test_wrb_overflow :
    after (.wrb 200 1) blank (fun t => (status t, t.fbuf)) = some (0x6080#32, []) := by decide

theorem test_rdb : after (.rdb 2) (frameState w5) State.rdata = some 0x02 := by decide

theorem test_rdb_truncated :
    after (.rdb 200) blank (fun t => (status t, t.rdata)) = some (0x5080#32, 0) := by decide

theorem test_setlen : after (.setlen 200) blank State.len = some 200 := by decide

theorem test_setlen_overflow :
    after (.setlen 201) blank (fun t => (status t, t.len)) = some (0x6080#32, 0) := by decide

theorem test_push :
    after (.push 0xFD) blank (fun t => (t.fbuf, t.len)) = some ([(0, 0xFD)], 1) := by decide

theorem test_push_overflow :
    after (.push 1) (lenState 200) (fun t => (status t, t.len, t.fbuf)) =
      some (0x6080#32, 200, []) := by decide

theorem test_ckclr : after .ckclr { blank with acc := 0x1234 } State.acc = some 0 := by decide

theorem test_ckadd_wraps :
    after (.ckadd 2) { blank with acc := 0xFFFF } (fun t => (t.acc, status t)) =
      some (0x0001, 0) := by decide

/-- The 258th addition of 0xFF: 65535 + 255 modulo 65536. -/
theorem test_ckadd_wraps_byte :
    after (.ckadd 0xFF) { blank with acc := 0xFFFF } State.acc = some 0x00FE := by decide

theorem test_cksum :
    after .cksum (frameState [0xFD, 0xFD, 0x02, 0x00, 0x00, 0x06]) State.acc = some 0x0008 := by
  decide

theorem test_cksum_empty :
    after .cksum { lenState 2 with acc := 0x1234 } State.acc = some 0 := by decide

theorem test_verify :
    after .verify (frameState w5) (fun t => (t.acc, status t)) = some (0x006D, 0x40#32) := by decide

/-- FBUF[7] = 0x38: a mismatch, no command error. -/
theorem test_verify_mismatch :
    after .verify { frameState [0xFD, 0xFD, 0x02, 0x00, 0x00, 0x06, 0x2E, 0x38, 0x6D, 0x00] with
      ckok := true } (fun t => (t.acc, status t)) = some (0x006E, 0) := by decide

theorem test_seal :
    after .sealOp (frameState (w5.take 8))
      (fun t => (t.fbuf.read 8, t.fbuf.read 9, t.len, t.acc)) =
      some (0x6D, 0x00, 10, 0x006D) := by decide

theorem test_seal_overflow :
    after .sealOp (lenState 199) (fun t => (status t, t.len, t.fbuf)) =
      some (0x6080#32, 199, []) := by decide

theorem test_lookup : after (.lookup 0x86) blank (readReg .lkup) = some 0x106#32 := by decide

theorem test_lookup_escape : after (.lookup 0xFE) blank (readReg .lkup) = some 0x200#32 := by decide

/-- P3: STATUS = 3 right after DECODE. -/
theorem test_decode :
    after .decode (frameState w5) (fun t => (status t, t.cursor)) = some (0x3#32, 0) := by decide

/-- F17: the second DECODE is refused and the decode unaffected. -/
theorem test_decode_busy :
    after .decode (decodingState .hdr 0 0 w5) (fun t => (status t, t.fsm)) =
      some (0x8083#32, .hdr) := by decide

/-- An illegal encoding is one before the busy check (R62; spec 95, 2.3 and P3). -/
theorem test_illegal_while_busy :
    (nextOf (runCommand 0x0D000000#32 (decodingState .hdr 0 0 w5))).map status =
      some 0x7083#32 := by decide

/-! ## Framer steps (spec 95, W3 to W8 and 2.4) -/

/-- F1. -/
theorem test_hdr_truncated :
    status (framerStep (decodingState .hdr 0 0 [])) = 0x51E#32 := by decide

/-- W3. -/
theorem test_hdr_invalid :
    status (framerStep (decodingState .hdr 0 0 [0xFD, 0xFC, 0x02, 0x00, 0x00, 0x06, 0x08, 0x00])) =
      0x11E#32 := by decide

/-- W6: ACC is written, the frame rejected. -/
theorem test_cks_mismatch :
    let t := framerStep (decodingState .cks 3 0
      [0xFD, 0xFD, 0x02, 0x00, 0x00, 0x06, 0x2E, 0x37, 0x6C, 0x00])
    status t = 0x21E#32 ∧ t.acc = 0x006D ∧ t.cursor = 0 := by decide

/-- W5's second step. -/
theorem test_cks :
    let t := framerStep (decodingState .cks 3 0 w5)
    t.acc = 0x006D ∧ t.pend = 8 ∧ t.fsm = .idn := by decide

/-- F3b. -/
theorem test_idn_truncated :
    let t := framerStep (decodingState .idn 3 3 [0xFD, 0xFD, 0x02, 0x02, 0x00])
    status t = 0x51E#32 ∧ t.cursor = 3 := by decide

/-- F4: IDENT = 0x04070204, the function byte at 11. -/
theorem test_idn :
    let t := framerStep (decodingState .idn 3 25
      [0xFD, 0xFD, 0x02, 0x02, 0x41, 0x42, 0x04, 0x31, 0x31, 0x31, 0x31, 0x06])
    t.shadow.ident = 0x04070204#32 ∧ t.cursor = 11 ∧ t.fsm = .fn := by decide

/-- F6. -/
theorem test_fun_unexpected :
    let t := framerStep (decodingState .fn 5 8
      [0xFD, 0xFD, 0x02, 0x00, 0x00, 0x03, 0x2E, 0x37, 0x6A, 0x00])
    status t = 0x31E#32 ∧ t.cursor = 5 := by decide

/-- F3c. -/
theorem test_fun_truncated :
    let t := framerStep (decodingState .fn 5 5 [0xFD, 0xFD, 0x02, 0x00, 0x00, 0x02, 0x00])
    status t = 0x51E#32 ∧ t.cursor = 5 := by decide

/-- W7: 58 02 is 600. -/
theorem test_par_fan_speed :
    let t := framerStep (decodingState .par 6 9
      [0xFD, 0xFD, 0x02, 0x00, 0x00, 0x06, 0x04, 0x58, 0x02, 0x66, 0x00])
    t.shadow.tel1 = 0x00000258#32 ∧ t.shadow.valid = 0x008 ∧ t.cursor = 9 := by decide

/-- W8. -/
theorem test_par_firmware :
    let t := framerStep (decodingState .par 6 13
      [0xFD, 0xFD, 0x02, 0x00, 0x00, 0x06, 0x86, 0x02, 0x01, 0x0F, 0x06, 0xE8, 0x07, 0x95, 0x01])
    t.shadow.fw0 = 0x060F0102#32 ∧ t.shadow.fw1 = 0x000007E8#32 ∧ t.shadow.valid = 0x020 := by
  decide

/-- F7. -/
theorem test_par_truncated :
    let t := framerStep (decodingState .par 6 8
      [0xFD, 0xFD, 0x02, 0x00, 0x00, 0x06, 0x04, 0x58, 0x64, 0x00])
    status t = 0x51E#32 ∧ t.cursor = 7 := by decide

/-- F9: an escaped FAN_SPEED of width 1 is skipped. -/
theorem test_par_escape_other_width :
    let t := framerStep (decodingState .par 6 10
      [0xFD, 0xFD, 0x02, 0x00, 0x00, 0x06, 0xFE, 0x01, 0x04, 0x07, 0x12, 0x01])
    t.shadow = Snapshot.zero ∧ t.cursor = 10 ∧ t.fsm = .par := by decide

/-- F10. -/
theorem test_par_escape_truncated :
    let t := framerStep (decodingState .par 6 8
      [0xFD, 0xFD, 0x02, 0x00, 0x00, 0x06, 0xFE, 0x02, 0x08, 0x01])
    status t = 0x51E#32 ∧ t.cursor = 8 := by decide

/-- F12: a value that is not 0 is ON. -/
theorem test_par_on_off :
    (framerStep (decodingState .par 8 10
      [0xFD, 0xFD, 0x02, 0x00, 0x00, 0x06, 0x01, 0x00, 0x01, 0x07, 0x11, 0x00])).shadow.tel0 =
      0x00000001#32 := by decide

/-- F5: CURSOR = PEND accepts. -/
theorem test_par_accept :
    let t := framerStep { decodingState .par 6 6 [0xFD, 0xFD, 0x02, 0x00, 0x00, 0x06, 0x08, 0x00]
      with shadow := storeIdent 4 0 5 0 Snapshot.zero }
    status t = 0x3C#32 ∧ readReg .valid t = 0x100#32 ∧ t.cursor = 6 := by decide

/-! ## The host -/

/-- R39, R47: a write past CMD is ignored, one to CMD runs. -/
theorem test_host_write :
    (nextOf (hostAccess (.write (wordAt 0x0C) 5) blank)) = some blank ∧
    (nextOf (hostAccess (.write (wordAt 0x04) 0x04000500#32) blank)).map State.len = some 5 := by
  decide

/-- R22, R38: BLKID, and 0 at an unmapped offset. -/
theorem test_host_read :
    (nextOf (hostAccess (.read (wordAt 0x00) 1) blank)).map State.hostReads =
      some [⟨1, 0xC5160100#32⟩] ∧
    (nextOf (hostAccess (.read (wordAt 0x48) 2) blank)).map State.hostReads =
      some [⟨2, 0⟩] := by decide

/-- R116: "2.1" and "15-6-2024" (W8). -/
theorem test_firmware_strings :
    firmwareVersion 0x060F0102#32 = ['2', '.', '1'] ∧
    firmwareDate 0x060F0102#32 0x000007E8#32 = ['1', '5', '-', '6', '-', '2', '0', '2', '4'] := by
  decide

/-- W4, W5: the power-on command for "ABC123" with no password. -/
theorem test_power_frame :
    powerFrame [0x41, 0x42, 0x43, 0x31, 0x32, 0x33] [] true =
      [0xFD, 0xFD, 0x02, 0x06, 0x41, 0x42, 0x43, 0x31, 0x32, 0x33, 0x00, 0x03, 0x01, 0x01, 0x69,
       0x01] := by decide

/-- P5: the search command. -/
theorem test_search_frame :
    searchFrame =
      [0xFD, 0xFD, 0x02, 0x10, 0x44, 0x45, 0x46, 0x41, 0x55, 0x4C, 0x54, 0x5F, 0x44, 0x45, 0x56,
       0x49, 0x43, 0x45, 0x49, 0x44, 0x00, 0x01, 0x7C, 0x30, 0x05] := by decide

/-! ## Witnesses: states and operands that meet the hypotheses of an obligation, one for each of
its clauses, at the boundary of the clause's range -/

/-- A buffer in the canonical form with the bytes `bs` from address 0 on. -/
def fullMemory (bs : List Byte) : Memory := (List.range 200).map fun a => (a, bs.getD a 0)

/-- The empty response (F5) at CURSOR = PEND in PAR. -/
def atEnd : State :=
  { decodingState .par 6 6 [0xFD, 0xFD, 0x02, 0x00, 0x00, 0x06, 0x08, 0x00] with
    fbuf := fullMemory [0xFD, 0xFD, 0x02, 0x00, 0x00, 0x06, 0x08, 0x00]
    shadow := storeIdent 4 0 5 0 Snapshot.zero }

/-- A decode of an empty frame before its first step (F1). -/
def atStart : State := { decodingState .hdr 0 0 [] with fbuf := fullMemory [] }

theorem fullMemory_wf (bs : List Byte) : (fullMemory bs).wf = true := by
  rw [Memory.wf_iff, fullMemory, List.map_map]
  simp [Function.comp_def, List.range_eq_range']

theorem inv_atEnd : Inv atEnd where
  fbufForm := fullMemory_wf _
  lenBound := by decide
  cursorBound := by decide
  cursorStart := by intro h; cases h
  cursorAfterHeader := by rintro (h | h) <;> cases h
  header := fun _ => ⟨by decide, rfl, rfl, rfl⟩
  pendFixed := fun _ => by decide
  doneIff := by decide
  acceptedIff := by decide
  derrIff := by decide
  derrLegal := rfl
  cerrLegal := rfl
  cmderrIff := by decide
  snapCleared := fun _ => rfl
  shadowCoherent := storeIdent_coherent _ _ _ _ _ Snapshot.coherent_zero
  snapCoherent := Snapshot.coherent_zero
  shadowIdent := fun _ => by decide
  snapIdent := by intro h; cases h

theorem inv_atStart : Inv atStart where
  fbufForm := fullMemory_wf _
  lenBound := by decide
  cursorBound := by decide
  cursorStart := fun _ => rfl
  cursorAfterHeader := by rintro (h | h) <;> cases h
  header := by intro h; cases h
  pendFixed := by intro h; cases h
  doneIff := by decide
  acceptedIff := by decide
  derrIff := by decide
  derrLegal := rfl
  cerrLegal := rfl
  cmderrIff := by decide
  snapCleared := fun _ => rfl
  shadowCoherent := Snapshot.coherent_zero
  snapCoherent := Snapshot.coherent_zero
  shadowIdent := by intro h; cases h
  snapIdent := by intro h; cases h

theorem witness_EncodeOfDecode : decoded 0x0200FFFF#32 = some (.wrb 255 255) := by decide

/-- `IllegalOtherwise`: for every opcode a word with RSV = 1, and one for each unused operand. -/
theorem witness_IllegalOtherwise :
    (∀ op : Fin 13, let w := commandWord (BitVec.ofNat 8 op.val) 0 0 ||| 0x00010000#32
      opField w = BitVec.ofNat 8 op.val ∧ rsvField w ≠ 0) ∧
    (∀ op : Fin 13, let w := commandWord (BitVec.ofNat 8 op.val) 1 1
      opField w = BitVec.ofNat 8 op.val ∧ aField w ≠ 0 ∧ bField w ≠ 0) := by decide

theorem witness_IllegalEncodings :
    legalWord 0x0D000000#32 = false ∧ legalWord 0xFF000000#32 = false ∧
    legalWord 0x00010000#32 = false ∧ legalWord 0x05000100#32 = false ∧
    legalWord 0x0B000001#32 = false := by decide

theorem witness_StepRunsTheCommand :
    let s := { blank with hostOps := [commandOp 0x0400C800#32] }
    let t := { decodingState .hdr 0 0 w5 with
      hostOps := [commandOp 0x0400C800#32], hostTurns := 1 }
    decoded 0x0400C800#32 = some (.setlen 200) ∧ s.busy = false ∧ t.busy = true ∧
    s.hostOps = commandOp 0x0400C800#32 :: [] ∧ t.hostOps = commandOp 0x0400C800#32 :: [] ∧
    t.hostTurns = 0 + 1 := by decide

/-- The last mapped offset, and offset 0xFC, the last access. -/
theorem witness_HostReadHasNoSideEffect :
    let s := { blank with hostOps := [.read (wordAt 0xFC) 1] }
    let t := { decodingState .hdr 0 0 w5 with hostOps := [.read (wordAt 0x44) 1], hostTurns := 1 }
    0xFC % 4 = 0 ∧ s.busy = false ∧ t.busy = true ∧ s.hostOps = .read (wordAt 0xFC) 1 :: [] ∧
    t.hostOps = .read (wordAt 0x44) 1 :: [] ∧ t.hostTurns = 0 + 1 ∧ regOffset .ident = 0x44 ∧
    (∀ off ∈ [0x48, 0xFC], regAt off = none) := by decide

/-- Unmapped offsets: none of the 18 registers is there. -/
theorem witness_HostReadUnmapped : ∀ r : Reg, regOffset r ≠ 0x48 ∧ regOffset r ≠ 0xFC := by
  intro r; cases r <;> decide

theorem witness_HostWriteRule :
    ∀ off ∈ [0x00, 0x08, 0x48, 0xFC], off % 4 = 0 ∧ off ≤ 0xFC ∧ off ≠ 0x04 := by decide

theorem witness_IllegalAccessRefused :
    (Access.mk 2 0x04).bytes ≠ 4 ∧ (Access.mk 4 0x05).off % 4 ≠ 0 ∧
    0xFC < (Access.mk 4 0x100).off := by decide

theorem witness_WaitPollsDone : { blank with done := true }.done = true ∧ blank.done = false := by
  decide

theorem witness_FramerStepsOnlyWhileBusy :
    let s := { blank with hostOps := [.wait 1] }
    let t := { atStart with hostOps := [.wait 1], hostTurns := 1 }
    atStart.hostOps = [] ∧ atStart.busy = true ∧
    { atStart with hostOps := [HostOp.wait 1] }.hostTurns = 0 ∧
    s.hostOps = .wait 1 :: [] ∧ s.busy = false ∧
    t.hostOps = .wait 1 :: [] ∧ t.busy = true ∧ t.hostTurns = 0 + 1 ∧
    blank.hostOps = [] ∧ blank.busy = false := by decide

theorem witness_FramerStepIsFair : atStart.busy = true := by decide

theorem witness_ResetValues : Reg.ident ≠ .blkid ∧ Reg.status ≠ .blkid ∧ 199 < 200 := by decide

/-- A step of the Framer and a step of the host, from states of the invariant. -/
theorem witness_StepKeepsInvariant :
    (Inv atEnd ∧ ∃ t, step atEnd = .next t) ∧
    (Inv State.reset → ∃ t, step (withCommand 0x0C000000#32 State.reset) = .next t) :=
  ⟨⟨inv_atEnd, _, advance_framer rfl (.inl rfl)⟩,
   fun _ => ⟨_, advance_withCommand 0x0C000000#32 State.reset⟩⟩

/-- The busy and idle states of every command rule, and the state after CLR. -/
theorem witness_ClrRule :
    ∃ i s t, exec i s = .next t ∧ s.cmderr = true ∧ t.cmderr = false :=
  ⟨.clr, { atStart with cmderr := true, cerr := .illegalCommand }, _, rfl, rfl, rfl⟩

/-- `RefusedWhileBusy` and BUSY = 0, for the rules of the 11 other commands. -/
theorem witness_commands : atStart.busy = true ∧ blank.busy = false := by decide

theorem witness_WrbRule : blank.busy = false ∧ 200 ≤ (200#8).toNat ∧ (199#8).toNat < 200 := by
  decide

theorem witness_RdbRule : blank.busy = false ∧ 200 ≤ (200#8).toNat ∧ (199#8).toNat < 200 := by
  decide

theorem witness_SetlenRule : blank.busy = false ∧ 200 < (201#8).toNat ∧ (200#8).toNat ≤ 200 := by
  decide

theorem witness_PushRule :
    (lenState 200).busy = false ∧ (lenState 200).len = 200 ∧
    (lenState 199).busy = false ∧ (lenState 199).len.toNat < 200 := by decide

theorem witness_CksumRule : (lenState 2).busy = false ∧ (lenState 2).len.toNat ≤ 2 := by decide

theorem witness_VerifyRule :
    (lenState 3).busy = false ∧ (lenState 3).len.toNat < 4 ∧
    (lenState 4).busy = false ∧ 4 ≤ (lenState 4).len.toNat ∧ (lenState 4).len = 4 := by decide

theorem witness_SealRule :
    (lenState 199).busy = false ∧ 198 < (lenState 199).len.toNat ∧
    (lenState 198).busy = false ∧ 2 ≤ (lenState 198).len.toNat ∧
    (lenState 198).len.toNat ≤ 198 ∧ (lenState 1).busy = false ∧ (lenState 1).len.toNat < 2 := by
  decide

/-- A found code; a code that is not found exists or not as CATALOG, an open parameter, has it. -/
theorem witness_LookupRule :
    blank.busy = false ∧ (0x04#8 : Byte) ≠ 0xFE ∧ catalog 0x04 = some 2 := by decide

theorem witness_DecodeRule :
    blank.busy = false ∧ ∃ t, exec .decode blank = .next t := ⟨rfl, _, rfl⟩

/-- A legal command but NOP and CLR, and a step after which BUSY is still 1. -/
theorem witness_BusyRefusal :
    Instr.decode ≠ .nop ∧ Instr.decode ≠ .clr ∧
    ∃ s t : State, s.busy = true ∧ step s = .next t ∧ t.busy = true := by
  refine ⟨by decide, by decide, decodingState .cks 3 0 w5, _, rfl,
    advance_framer rfl (.inl rfl), rfl⟩

theorem witness_OnlyClrClearsCmderr :
    ∃ s t : State, step s = .next t ∧ s.cmderr = true ∧ t.cmderr = false :=
  ⟨withCommand 0x01000000#32 { blank with cmderr := true, cerr := .illegalCommand }, _,
    advance_withCommand _ _, rfl, rfl⟩

theorem witness_FbufWrittenOnlyByStores :
    ∃ s t : State, step s = .next t ∧ t.fbuf ≠ s.fbuf :=
  ⟨withCommand 0x0200C701#32 blank, _, advance_withCommand _ _, by decide⟩

/-- A step of each of the three kinds: accept(), CLR, and DECODE after a finished decode. -/
theorem witness_SnapshotCommittedOnlyByAccept :
    let full := { blank with snap := { Snapshot.zero with humidity := 55 } }
    (∃ t : State, step atEnd = .next t ∧ t.snap ≠ atEnd.snap) ∧
    (∃ t : State, step (withCommand 0x01000000#32 full) = .next t ∧
      t.snap ≠ (withCommand 0x01000000#32 full).snap) ∧
    (∃ t : State, step (withCommand 0x0C000000#32 full) = .next t ∧
      t.snap ≠ (withCommand 0x0C000000#32 full).snap) := by
  refine ⟨⟨_, advance_framer rfl (.inl rfl), ?_⟩, ⟨_, advance_withCommand _ _, by decide⟩,
    ⟨_, advance_withCommand _ _, by decide⟩⟩
  show storeIdent 4 0 5 0 Snapshot.zero ≠ Snapshot.zero
  decide

theorem witness_Sum16IsTheSum : 2 ≤ 3 ∧ 2 ≤ 2 := by decide

theorem witness_FrameSumNeverWraps : 200 ≤ 200 := by decide

/-- The first and the last byte of a sealed frame's range. -/
theorem witness_OneByteChangeDetected :
    let s := frameState w5
    s.busy = false ∧ 4 ≤ s.len.toNat ∧ s.len.toNat ≤ 200 ∧
    sum16 s.fbuf 2 (s.len.toNat - 2) = trailer s.fbuf s.len.toNat ∧
    (2 ≤ (2#8).toNat ∧ (2#8).toNat < s.len.toNat ∧ 0x03#8 ≠ s.fbuf.read 2) ∧
    (2 ≤ (9#8).toNat ∧ (9#8).toNat < s.len.toNat ∧ 0x01#8 ≠ s.fbuf.read 9) := by decide

theorem witness_HdrRule :
    let short := decodingState .hdr 0 0 [0xFD, 0xFD]
    let bad := decodingState .hdr 0 0 [0xFD, 0xFD, 0x03]
    let good := decodingState .hdr 0 0 [0xFD, 0xFD, 0x02]
    (short.fsm = .hdr ∧ short.len.toNat < 3) ∧
    (bad.fsm = .hdr ∧ 3 ≤ bad.len.toNat ∧ bad.fbuf.read 2 ≠ 0x02) ∧
    (good.fsm = .hdr ∧ 3 ≤ good.len.toNat ∧
      good.fbuf.read 0 = 0xFD ∧ good.fbuf.read 1 = 0xFD ∧ good.fbuf.read 2 = 0x02) := by decide

/-- LEN = 3, LEN = 4 with a mismatch (F3a), LEN = 5 with a match (F3b). -/
theorem witness_CksRule :
    let short := decodingState .cks 3 0 [0xFD, 0xFD, 0x02]
    let four := decodingState .cks 3 0 [0xFD, 0xFD, 0x02, 0x02]
    let good := decodingState .cks 3 0 [0xFD, 0xFD, 0x02, 0x02, 0x00]
    (short.fsm = .cks ∧ short.len.toNat < 4) ∧
    (four.fsm = .cks ∧ four.len = 4 ∧ four.fbuf.read 0 = 0xFD ∧ four.fbuf.read 1 = 0xFD ∧
      four.fbuf.read 2 = 0x02 ∧
      sum16 four.fbuf 2 (four.len.toNat - 2) ≠ trailer four.fbuf four.len.toNat) ∧
    (good.fsm = .cks ∧ 4 ≤ good.len.toNat ∧
      sum16 good.fbuf 2 (good.len.toNat - 2) = trailer good.fbuf good.len.toNat) := by decide

/-- The five clauses at CURSOR = 3: PEND = 3; N past PEND by one; PEND at the second length byte;
M past PEND by one; both strings empty and PEND right after them. -/
theorem witness_IdnRule :
    let len (p : Byte) (n m : Byte) := decodingState .idn 3 p [0xFD, 0xFD, 0x02, n, m]
    ((len 3 0 0).fsm = .idn ∧ (len 3 0 0).pend.toNat ≤ 3) ∧
    (3 < (len 4 1 0).pend.toNat ∧ (len 4 1 0).pend.toNat < 3 + 1 + ((len 4 1 0).fbuf.read 3).toNat) ∧
    (3 < (len 4 0 0).pend.toNat ∧ (len 4 0 0).pend.toNat = 3 + 1 + ((len 4 0 0).fbuf.read 3).toNat) ∧
    (3 + 1 + 0 < (len 5 0 1).pend.toNat ∧
      (len 5 0 1).pend.toNat < 3 + 2 + 0 + ((len 5 0 1).fbuf.read 4).toNat) ∧
    (3 + 2 + 0 + ((len 5 0 0).fbuf.read 4).toNat ≤ (len 5 0 0).pend.toNat) := by decide

/-- The empty response (F5) before its IDN step. -/
theorem witness_IdnRule_inv :
    ∃ s, Inv s ∧ s.fsm = .idn ∧ (framerStep s).fsm = .fn :=
  ⟨{ atEnd with fsm := .idn, cursor := 3, shadow := Snapshot.zero },
    { inv_atEnd with
      cursorBound := by decide
      cursorStart := by intro h; cases h
      cursorAfterHeader := fun _ => rfl
      header := fun _ => ⟨by decide, rfl, rfl, rfl⟩
      pendFixed := fun _ => by decide
      doneIff := by decide
      acceptedIff := by decide
      derrIff := by decide
      snapCleared := fun _ => rfl
      shadowCoherent := Snapshot.coherent_zero
      shadowIdent := by intro h; cases h
      snapIdent := by intro h; cases h }, rfl, rfl⟩

theorem witness_FunRule :
    let at' (p f : Byte) := decodingState .fn 5 p [0xFD, 0xFD, 0x02, 0x00, 0x00, f]
    ((at' 5 6).fsm = .fn ∧ (at' 5 6).pend.toNat ≤ 5) ∧
    (5 < (at' 6 3).pend.toNat ∧ (at' 6 3).fbuf.read 5 ≠ 0x06) ∧
    (5 < (at' 6 6).pend.toNat ∧ (at' 6 6).fbuf.read 5 = 0x06) := by decide

/-- The clauses but UNKNOWN_PARAMETER, at CURSOR = 6. -/
theorem witness_ParRule :
    let at' (p : Byte) (bs : List Byte) :=
      decodingState .par 6 p ([0xFD, 0xFD, 0x02, 0x00, 0x00, 0x06] ++ bs)
    (6 = (at' 6 []).pend.toNat ∧ (at' 6 []).fsm = .par) ∧
    (6 < (at' 7 [0xFE]).pend.toNat ∧ (at' 7 [0xFE]).fbuf.read 6 = 0xFE ∧
      (at' 7 [0xFE]).pend.toNat ≤ 7) ∧
    ((at' 8 [0xFE, 0]).fbuf.read 6 = 0xFE ∧ (at' 8 [0xFE, 0]).pend.toNat = 6 + 2) ∧
    ((at' 9 [0xFE, 1, 4]).fbuf.read 6 = 0xFE ∧ 6 + 2 < (at' 9 [0xFE, 1, 4]).pend.toNat ∧
      1 = ((at' 9 [0xFE, 1, 4]).fbuf.read 7).toNat ∧
      (at' 9 [0xFE, 1, 4]).pend.toNat < 6 + 3 + 1) ∧
    (0 = ((at' 9 [0xFE, 0, 4]).fbuf.read 7).toNat ∧
      6 + 3 + 0 ≤ (at' 9 [0xFE, 0, 4]).pend.toNat) ∧
    ((at' 8 [4, 0x58]).fbuf.read 6 ≠ 0xFE ∧ catalog ((at' 8 [4, 0x58]).fbuf.read 6) = some 2 ∧
      (at' 8 [4, 0x58]).pend.toNat < 6 + 1 + 2) ∧
    (6 + 1 + 2 ≤ (at' 9 [4, 0x58, 2]).pend.toNat) := by decide

/-- UNKNOWN_PARAMETER, for a CATALOG with a NotFound code; which codes those are is open (R8, R83),
so no closed code can be named. -/
theorem witness_ParRule_unknown (c : Byte) (hc : c ≠ 0xFE) (h : catalog c = none) :
    let s := decodingState .par 6 7 [0xFD, 0xFD, 0x02, 0x00, 0x00, 0x06, c]
    s.fsm = .par ∧ s.cursor.toNat < s.pend.toNat ∧ s.fbuf.read 6 ≠ 0xFE ∧
      catalog (s.fbuf.read 6) = none := ⟨rfl, show 6 < 7 by decide, hc, h⟩

theorem witness_AcceptAndRejectWrites : 200 ≤ 200 ∧ 0 ≤ 200 := by decide

theorem witness_AcceptOutcome :
    Inv atEnd ∧ atEnd.busy = true ∧ (framerStep atEnd).fsm = .accept := ⟨inv_atEnd, rfl, rfl⟩

theorem witness_RejectOutcome :
    Inv atStart ∧ atStart.busy = true ∧ (framerStep atStart).fsm = .reject :=
  ⟨inv_atStart, rfl, rfl⟩

/-- An IDN step that goes on to FUN at CURSOR = PEND, and a buffer that differs past PEND. -/
theorem witness_FramerBounds :
    (∃ s, Inv s ∧ s.busy = true ∧ s.fsm.readsFields = true ∧
      (framerStep s).fsm.readsFields = true) ∧
    (∃ s : State, ∃ m : Memory, s.fsm.readsFields = true ∧ s.cursor.toNat ≤ s.pend.toNat ∧
      (∀ a, a < s.pend.toNat → m.read a = s.fbuf.read a) ∧ m.read 7 ≠ s.fbuf.read 7) ∧
    (Inv atStart ∧ atStart.busy = true ∧ (framerStep atStart).fsm ≠ .accept) := by
  refine ⟨⟨{ atEnd with fsm := .fn, cursor := 5 }, ?_, rfl, rfl, rfl⟩,
    ⟨atEnd, atEnd.fbuf.write 7 1, rfl, by decide, ?_, ?_⟩, inv_atStart, rfl, by decide⟩
  · exact { inv_atEnd with
      cursorBound := by decide
      cursorStart := by intro h; cases h
      cursorAfterHeader := by rintro (h | h) <;> cases h
      header := fun _ => ⟨by decide, rfl, rfl, rfl⟩
      pendFixed := fun _ => by decide
      doneIff := by decide
      acceptedIff := by decide
      derrIff := by decide
      snapCleared := fun _ => rfl
      shadowIdent := fun _ => by decide
      snapIdent := by intro h; cases h }
  · intro a ha
    have : atEnd.pend.toNat = 6 := rfl
    exact Memory.read_write_other _ _ (by omega)
  · rw [Memory.read_write_same]; decide

/-- The other codes and widths: a skipped parameter, and UNIT_TYPE's catalog entry. -/
theorem witness_SemanticTable :
    attrOfCode 0x05 = none ∧ attrOfCode 0xB9 = some .unitType ∧
    catalog 0xB9 = some unitTypeWidth := ⟨rfl, rfl, rfl⟩

theorem witness_SemanticTable_skipped :
    ((0x04#8).toNat, 1) ∉ [(0x01, 1), (0x02, 1), (0x31, 1), (0x04, 2), (0x2E, 1), (0x86, 6),
      (0xB9, unitTypeWidth.toNat), (0x7C, 16)] := by simp

/-- Two occurrences of ON_OFF, one of them escaped, with a HUMIDITY between and after them (F12). -/
theorem witness_LastOccurrenceStands :
    let x := StreamItem.escaped 0x01 [0]
    let y := StreamItem.plain 0x01 [7]
    let z := StreamItem.plain 0x2E [55]
    x.code = y.code ∧ y.decodes .onOff ∧ x.decodes .onOff ∧ ∀ i ∈ [z], ¬ i.decodes .onOff := by
  refine ⟨rfl, ⟨rfl, rfl⟩, ⟨rfl, rfl⟩, fun i hi h => ?_⟩
  obtain rfl : i = .plain 0x2E [55] := by simpa using hi
  exact absurd h.1 (by decide)

theorem witness_EveryDecodeEnds :
    (decodingState .hdr 0 0 w5).fsm = .hdr ∧ (decodingState .cks 3 0 w5).fsm = .cks ∧
    (decodingState .idn 3 8 w5).fsm = .idn ∧ (decodingState .fn 5 8 w5).fsm = .fn ∧
    (decodingState .par 8 8 w5).fsm = .par ∧
    (decodingState .par 8 8 w5).cursor.toNat ≤ (decodingState .par 8 8 w5).pend.toNat ∧
    (lenState 200).busy = false ∧ (lenState 200).len.toNat ≤ 200 := by decide

theorem witness_DecodeIsAFunctionOfTheFrame :
    (lenState 200).busy = false ∧ (lenState 200).len.toNat ≤ 200 := by decide

/-- W5: no identity, one parameter. -/
theorem witness_WellFormedResponseAccepted :
    (frameState w5).busy = false ∧ (∀ i ∈ [StreamItem.plain 0x2E [0x37]], i.legal) ∧
    bytesAt (frameState w5).fbuf 0 (frameState w5).len.toNat =
      frame [] [] .response (streamBytes [.plain 0x2E [0x37]]) ∧
    (frameState w5).len.toNat ≤ 200 :=
  ⟨rfl, by simpa using ⟨by decide, 1, by decide, rfl⟩, by decide, by decide⟩

/-- F5: the empty response is accepted. -/
theorem witness_OnlyWellFormedResponsesAccepted :
    ∃ s t n, s.busy = false ∧ s.len.toNat ≤ 200 ∧ exec .decode s = .next t ∧
      decodeResult (framerRun (s.len.toNat + 5) t) = some (.accepted n) :=
  ⟨frameState [0xFD, 0xFD, 0x02, 0x00, 0x00, 0x06, 0x08, 0x00], _,
    storeIdent 4 0 5 0 Snapshot.zero, rfl, by decide, rfl, by decide⟩

theorem witness_SealCompletesTheFrame :
    (frameState (w5.take 8)).busy = false ∧
    bytesAt (frameState (w5.take 8)).fbuf 0 (frameState (w5.take 8)).len.toNat =
      frameBody [] [] 0x06 [0x2E, 0x37] ∧
    (frameState (w5.take 8)).len.toNat ≤ 198 := by decide

end Sys2Proof.Tests
end

section
/-! PROOFS. The obligations of 00_scope.md. -/

namespace Sys2Proof.Proofs

open Sys2Proof Sys2Proof.Machine

/-- R14, over every range: the sum of its bytes, wrapped to 16 bits. -/
theorem sum16_toNat_eq_sum_mod (m : Memory) (a b : Nat) :
    (sum16 m a b).toNat =
      ((List.range (b - a)).map fun i => (m.read (a + i)).toNat).sum % 65536 := by
  rw [sum16, BitVec.toNat_ofNat, byteSum_eq]

/-- Settles O33: `byteSum_eq` gives the sum of the range before it wraps, and an empty range sums
to 0. -/
theorem sum16IsTheSum : Obligations.Sum16IsTheSum :=
  ⟨fun m a b _ => sum16_toNat_eq_sum_mod m a b, sum16_empty⟩

end Sys2Proof.Proofs
end

section
/-! PROOFS. The invariant of the block: it holds at reset and every step of either agent keeps it
(10_state.md R24 to R28, R31, R32, R35; 43_response_framer.md R119). -/

namespace Sys2Proof.Proofs

open Sys2Proof Sys2Proof.Machine

/-! ## What the commands and the host keep -/

/-- A command error records a legal code in CERR and leaves the rest of the block (R122). -/
theorem inv_commandError {s : State} {c : ErrorCode} (h : Inv s) (hl : c.commandLegal = true)
    (hc : c ≠ .none) : Inv (commandError c s) :=
  { h with
    cerrLegal := hl
    cmderrIff := by simp [hc] }

/-- CLR gives the reset values and keeps FBUF (R97). -/
theorem inv_softReset {s : State} (h : Inv s) : Inv (softReset s) where
  fbufForm := h.fbufForm
  lenBound := by simp
  cursorBound := by simp
  cursorStart := by simp
  cursorAfterHeader := by simp
  header := by simp [FramerState.headerRead]
  pendFixed := by simp [FramerState.readsFields]
  doneIff := by simp
  acceptedIff := by simp
  derrIff := by simp
  derrLegal := rfl
  cerrLegal := rfl
  cmderrIff := by simp
  snapCleared := by simp
  shadowCoherent := Snapshot.coherent_zero
  snapCoherent := Snapshot.coherent_zero
  shadowIdent := by simp [FramerState.identRead]
  snapIdent := by simp

/-- DECODE clears both snapshots and starts at CURSOR = 0 (R102). -/
theorem inv_startDecode {s : State} (h : Inv s) : Inv (startDecode s) :=
  { h with
    cursorBound := by simp
    cursorStart := by simp
    cursorAfterHeader := by simp
    header := by simp [FramerState.headerRead]
    pendFixed := by simp [FramerState.readsFields]
    doneIff := by simp
    acceptedIff := by simp
    derrIff := by simp
    derrLegal := rfl
    snapCleared := by simp
    shadowCoherent := Snapshot.coherent_zero
    snapCoherent := Snapshot.coherent_zero
    shadowIdent := by simp [FramerState.identRead]
    snapIdent := by simp }

/-- While BUSY = 0 no decode relies on FBUF or LEN: any canonical buffer and any length up to 200
will do. -/
theorem inv_setFrame {s : State} {m : Memory} {n : Byte} (h : Inv s) (idle : s.busy = false)
    (hm : m.wf = true) (hn : n.toNat ≤ 200) : Inv { s with fbuf := m, len := n } :=
  { h with
    fbufForm := hm
    lenBound := hn
    header := by
      obtain e | e | e := (busy_false_iff s).mp idle <;> simp [e, FramerState.headerRead]
    pendFixed := by
      obtain e | e | e := (busy_false_iff s).mp idle <;> simp [e, FramerState.readsFields] }

/-- Every command keeps the invariant. -/
theorem inv_command {i : Instr} {s t : State} (h : Inv s) (e : CommandEffect i s t) : Inv t := by
  cases e with
  | same => exact h
  | reset => exact inv_softReset h
  | error c legal isError => exact inv_commandError h legal isError
  | store idle a v _ bound =>
    exact inv_setFrame h idle (Memory.wf_write _ _ _ h.fbufForm bound) h.lenBound
  | setLen idle n _ bound => exact inv_setFrame h idle h.fbufForm bound
  | push idle v _ bound =>
    exact inv_setFrame h idle (Memory.wf_write _ _ _ h.fbufForm bound) (by bv_omega)
  | sealed idle sum _ bound =>
    have hs := inv_setFrame (n := s.len + 2) h idle
      (appendTrailer_wf s.fbuf s.len.toNat sum h.fbufForm bound) (by bv_omega)
    exact { hs with }
  | decode => exact inv_startDecode h
  | rdata | acc | verify | lkup => exact { h with }

/-- A word written to CMD keeps the invariant, illegal or not (R39, R61). -/
theorem inv_word {w : Word} {s t : State} (h : Inv s) (e : WordEffect w s t) : Inv t := by
  cases e with
  | command i _ effect => exact inv_command h effect
  | illegal => exact inv_commandError h rfl (by simp)

/-- Every host access keeps the invariant. -/
theorem inv_host {op : HostOp} {s t : State} (h : Inv s) (e : HostEffect op s t) : Inv t := by
  cases e with
  | command w _ effect => exact inv_word h effect
  | ignored => exact h
  | noted | polling => exact { h with }

/-! ## What the Framer keeps -/

theorem not_ended_of_busy {s : State} (busy : s.busy = true) :
    ¬ (s.fsm = .accept ∨ s.fsm = .reject) := by
  rintro (e | e) <;> simp [State.busy, e] at busy

/-- Past the header the decode is in CKS or in a state that reads fields. -/
theorem headerRead_cases {f : FramerState} (h : f.headerRead = true) :
    f = .cks ∨ f.readsFields = true := by
  cases f <;> simp_all [FramerState.headerRead, FramerState.readsFields]

/-- A rejection at an offset of FBUF or just past it (R110). -/
theorem inv_reject {s : State} {c : ErrorCode} {pos : Nat} (h : Inv s) (busy : s.busy = true)
    (hl : c.decodeLegal = true) (hc : c ≠ .none) (hp : pos ≤ 200) : Inv (reject c pos s) :=
  { h with
    cursorBound := by simp; omega
    cursorStart := by simp
    cursorAfterHeader := by simp
    header := by simp [FramerState.headerRead]
    pendFixed := by simp [FramerState.readsFields]
    doneIff := by simp
    acceptedIff := by simp
    derrIff := by simp [hc]
    derrLegal := hl
    snapCleared := fun _ => h.snapCleared fun e => not_ended_of_busy busy (.inl e)
    shadowCoherent := Snapshot.coherent_zero
    shadowIdent := by simp [FramerState.identRead]
    snapIdent := by simp }

/-- accept() commits the shadow, whose identity block has been read in PAR (R109). -/
theorem inv_accept {s : State} (h : Inv s) (par : s.fsm = .par) : Inv (accept s) :=
  { h with
    cursorStart := by simp
    cursorAfterHeader := by simp
    header := by simp [FramerState.headerRead]
    pendFixed := by simp [FramerState.readsFields]
    doneIff := by simp
    acceptedIff := by simp
    derrIff := by simp
    derrLegal := rfl
    snapCleared := by simp
    snapCoherent := h.shadowCoherent
    shadowIdent := by simp [FramerState.identRead]
    snapIdent := fun _ => h.shadowIdent (by rw [par]; rfl) }

/-- A Framer step that lets the decode run on: the header has been read, CURSOR is 3 up to the
identity block, and from IDN on PEND is LEN - 2 and bounds CURSOR (R119). The outcome fields keep
the values of a running decode. -/
theorem inv_goesOn {s : State} {f : FramerState} {c p : Byte} {a : Half} {n : Snapshot}
    (h : Inv s) (busy : s.busy = true) (running : f.headerRead = true)
    (header : 3 ≤ s.len.toNat ∧ headerAt s.fbuf) (start : f = .cks ∨ f = .idn → c = 3)
    (pendFixed : f.readsFields = true → p.toNat + 2 = s.len.toNat ∧ c.toNat ≤ p.toNat)
    (coherent : n.Coherent) (ident : f.identRead = true → n.has 8 = true ∧ n.idOff = 4) :
    Inv { s with cursor := c, acc := a, pend := p, shadow := n, fsm := f } := by
  have sRuns := not_ended_of_busy busy
  have fRuns : ¬ (f = .accept ∨ f = .reject) := by
    rintro (rfl | rfl) <;> simp [FramerState.headerRead] at running
  exact
    { h with
      cursorBound := by
        have len := h.lenBound
        obtain cks | fields := headerRead_cases running
        · simp [start (.inl cks)]
        · obtain ⟨_, bound⟩ := pendFixed fields
          show c.toNat ≤ 200
          omega
      cursorStart := by rintro rfl; simp [FramerState.headerRead] at running
      cursorAfterHeader := start
      header := fun _ => header
      pendFixed := pendFixed
      doneIff := iff_of_false (mt h.doneIff.mp sRuns) fRuns
      acceptedIff :=
        iff_of_false (fun e => sRuns (.inl (h.acceptedIff.mp e))) (fun e => fRuns (.inl e))
      derrIff := iff_of_false (fun e => sRuns (.inr (h.derrIff.mp e))) (fun e => fRuns (.inr e))
      snapCleared := fun _ => h.snapCleared fun e => sRuns (.inl e)
      shadowCoherent := coherent
      shadowIdent := ident
      snapIdent := fun e => absurd (.inl e) fRuns }

theorem inv_framerHdr {s : State} (h : Inv s) (hdr : s.fsm = .hdr) : Inv (framerHdr s) := by
  have busy : s.busy = true := by simp [State.busy, hdr]
  obtain ⟨_, e⟩ | ⟨_, _, e⟩ | ⟨len, magic, e⟩ := framerHdr_cases s <;> rw [e]
  · exact inv_reject h busy rfl (by simp) (by omega)
  · exact inv_reject h busy rfl (by simp) (by omega)
  · exact inv_goesOn h busy rfl ⟨len, magic⟩ (fun _ => rfl) (by simp [FramerState.readsFields])
      h.shadowCoherent (by simp [FramerState.identRead])

/-- In a frame of 4 bytes the trailer's low byte is the magic's 0x02, while the sum is empty: CKS
rejects the frame (R105). -/
theorem sum16_ne_trailer_of_headerAt {m : Memory} (magic : headerAt m) :
    sum16 m 2 (4 - 2) ≠ trailer m 4 := by
  obtain ⟨_, _, two⟩ := magic
  intro e
  rw [sum16_empty _ _ _ (by omega), trailer, two] at e
  have low := congrArg lowByte e
  rw [lowByte_le16] at low
  exact absurd low (by decide)

/-- PEND is fixed past CURSOR = 3, since a frame whose checksum fits has more than 4 bytes
(R105). -/
theorem inv_framerCks {s : State} (h : Inv s) (cks : s.fsm = .cks) : Inv (framerCks s) := by
  have busy : s.busy = true := by simp [State.busy, cks]
  have header := h.header (by rw [cks]; rfl)
  have cursor : s.cursor = 3 := h.cursorAfterHeader (.inl cks)
  obtain ⟨_, e⟩ | ⟨_, _, e⟩ | ⟨len, sum, e⟩ := framerCks_cases s <;> rw [e]
  · exact inv_reject h busy rfl (by simp) (by omega)
  · exact inv_reject { h with } busy rfl (by simp) (by omega)
  · have len4 : s.len.toNat ≠ 4 := fun e => by
      rw [e] at sum
      exact sum16_ne_trailer_of_headerAt header.2 sum
    refine inv_goesOn h busy rfl header (fun _ => cursor) (fun _ => ?_)
      h.shadowCoherent (by simp [FramerState.identRead])
    rw [cursor]
    bv_omega

/-- IDN starts at CURSOR = 3, so the device id's first byte is at offset 4 (R106). -/
theorem inv_framerIdn {s : State} (h : Inv s) (idn : s.fsm = .idn) : Inv (framerIdn s) := by
  have busy : s.busy = true := by simp [State.busy, idn]
  have cursor : s.cursor = 3 := h.cursorAfterHeader (.inr idn)
  have len := h.lenBound
  obtain ⟨pend, bound⟩ := h.pendFixed (by rw [idn]; rfl)
  obtain ⟨pos, _, le, e⟩ | ⟨n, m, _, _, fits, e⟩ := framerIdn_cases s <;> rw [e]
  · have := le bound
    exact inv_reject h busy rfl (by simp) (by omega)
  · refine inv_goesOn h busy rfl (h.header (by rw [idn]; rfl)) (by simp) (fun _ => ⟨pend, ?_⟩)
      (storeIdent_coherent _ _ _ _ _ h.shadowCoherent) (fun _ => ⟨by simp, by rw [cursor]; rfl⟩)
    rw [BitVec.toNat_ofNat]
    omega

theorem inv_framerFun {s : State} (h : Inv s) (fn : s.fsm = .fn) : Inv (framerFun s) := by
  have busy : s.busy = true := by simp [State.busy, fn]
  have cursor := h.cursorBound
  obtain ⟨pend, bound⟩ := h.pendFixed (by rw [fn]; rfl)
  obtain ⟨_, e⟩ | ⟨_, _, e⟩ | ⟨lt, _, e⟩ := framerFun_cases s <;> rw [e]
  · exact inv_reject h busy rfl (by simp) cursor
  · exact inv_reject h busy rfl (by simp) cursor
  · refine inv_goesOn h busy rfl (h.header (by rw [fn]; rfl)) (by simp) (fun _ => ⟨pend, ?_⟩)
      h.shadowCoherent (fun _ => h.shadowIdent (by rw [fn]; rfl))
    rw [BitVec.toNat_ofNat]
    omega

/-- No parameter touches the identity fields IDN has stored (R106, R111). -/
theorem inv_framerPar {s : State} (h : Inv s) (par : s.fsm = .par) : Inv (framerPar s) := by
  have busy : s.busy = true := by simp [State.busy, par]
  have len := h.lenBound
  obtain ⟨pend, bound⟩ := h.pendFixed (by rw [par]; rfl)
  obtain ⟨_, e⟩ | ⟨_, code, pos, codes, le, e⟩ | ⟨real, w, p, _, fits, e⟩ :=
    framerPar_cases s bound <;> rw [e]
  · exact inv_accept h par
  · obtain rfl | rfl := codes
    · exact inv_reject h busy rfl (by simp) (by omega)
    · exact inv_reject h busy rfl (by simp) (by omega)
  · obtain ⟨has8, idOff, _⟩ := semantic_ident real w (payloadAt s.fbuf p) s.shadow
    refine inv_goesOn h busy (by rw [par]; rfl) (h.header (by rw [par]; rfl)) (by simp [par])
      (fun _ => ⟨pend, ?_⟩) (semantic_coherent _ _ _ _ h.shadowCoherent)
      (fun _ => by rw [has8, idOff]; exact h.shadowIdent (by rw [par]; rfl))
    rw [BitVec.toNat_ofNat]
    omega

/-- Every step of the Framer keeps the invariant (R103). -/
theorem inv_framerStep {s : State} (h : Inv s) : Inv (framerStep s) := by
  cases e : s.fsm with
  | hdr => rw [framerStep_hdr e]; exact inv_framerHdr h e
  | cks => rw [framerStep_cks e]; exact inv_framerCks h e
  | idn => rw [framerStep_idn e]; exact inv_framerIdn h e
  | fn => rw [framerStep_fun e]; exact inv_framerFun h e
  | par => rw [framerStep_par e]; exact inv_framerPar h e
  | idle | accept | reject => simpa [framerStep, e] using h

/-! ## The obligations -/

/-- Settles O13: nothing has been decoded, and FBUF_INIT fills the canonical buffer. -/
theorem resetMeetsInvariant : Obligations.ResetMeetsInvariant where
  fbufForm := Memory.wf_reset
  lenBound := by decide
  cursorBound := by decide
  cursorStart := by decide
  cursorAfterHeader := by decide
  header := nofun
  pendFixed := nofun
  doneIff := by decide
  acceptedIff := by decide
  derrIff := by decide
  derrLegal := rfl
  cerrLegal := rfl
  cmderrIff := by decide
  snapCleared := fun _ => rfl
  shadowCoherent := Snapshot.coherent_zero
  snapCoherent := Snapshot.coherent_zero
  shadowIdent := nofun
  snapIdent := nofun

/-- Settles O14: a step is a host access or the Framer's step (`step_inv`), and each keeps the
invariant; the host's side of the state is no part of it. -/
theorem stepKeepsInvariant : Obligations.StepKeepsInvariant := by
  intro s t h hst
  cases step_inv hst with
  | host op ops k _ _ effect =>
    exact inv_host (s := { s with hostOps := ops, hostTurns := k }) { h with } effect
  | framer => exact { inv_framerStep h with }

end Sys2Proof.Proofs
end

section
/-! PROOFS. Who writes FBUF and the committed snapshot, over every step of either agent
(10_state.md R32, R35). -/

namespace Sys2Proof.Proofs

open Sys2Proof Sys2Proof.Machine

/-- A command has one word: a word that decodes is the encoding of its command (R58 to R61). -/
theorem encode_of_decode {w : Word} {i : Instr} (h : decode w = .ok i) : encode i = w := by
  obtain ⟨u, use, rsv, a0, b0, rfl⟩ := (decode_ok_iff w i).mp h
  have le := opcodeUse_cases use
  have op : opField w = BitVec.ofNat 8 (opField w).toNat := by simp
  refine Eq.trans ?_ (word_eq_commandWord rsv).symm
  rw [op]
  generalize (opField w).toNat = n, aField w = a, bField w = b at use le a0 b0 ⊢
  interval_cases n <;> cases use <;> simp_all [encode]

/-- A step is the Framer's, or the host's write of a command's word to CMD, or it leaves FBUF and
the committed snapshot alone. -/
theorem step_cases {s t : State} (h : step s = .next t) :
    (s.busy = true ∧ t = framerTurn s) ∨
    (∃ w i ops k, s.hostOps = .write (wordAt 0x04) w :: ops ∧ decode w = .ok i ∧
      CommandEffect i { s with hostOps := ops, hostTurns := k } t) ∨
    (t.fbuf = s.fbuf ∧ t.snap = s.snap) := by
  cases step_inv h with
  | framer busy => exact .inl ⟨busy, rfl⟩
  | host op ops k taken _ effect =>
    cases effect with
    | command w is effect =>
      cases effect with
      | command i decodes effect =>
        exact .inr (.inl ⟨w, i, ops, k, by rw [taken, is]; rfl, decodes, effect⟩)
      | illegal => exact .inr (.inr ⟨rfl, rfl⟩)
    | ignored | noted | polling => exact .inr (.inr ⟨rfl, rfl⟩)

/-- The three commands that store into FBUF (R98, R101, R95). -/
theorem stores_of_fbuf_ne {i : Instr} {s t : State} (e : CommandEffect i s t)
    (changed : t.fbuf ≠ s.fbuf) :
    s.busy = false ∧ ((∃ a b, i = .wrb a b) ∨ (∃ b, i = .push b) ∨ i = .sealOp) := by
  cases e with
  | store idle a v is => exact ⟨idle, .inl ⟨a, v, is⟩⟩
  | push idle v is => exact ⟨idle, .inr (.inl ⟨v, is⟩)⟩
  | sealed idle _ is => exact ⟨idle, .inr (.inr is)⟩
  | _ => exact absurd rfl changed

/-- The two commands that write the committed snapshot, both to clear it (R97, R102). -/
theorem clears_of_snap_ne {i : Instr} {s t : State} (e : CommandEffect i s t)
    (changed : t.snap ≠ s.snap) :
    (i = .clr ∧ t = softReset s) ∨ (s.busy = false ∧ i = .decode ∧ t = startDecode s) := by
  cases e with
  | reset is => exact .inl ⟨is, rfl⟩
  | decode idle is => exact .inr ⟨idle, is, rfl⟩
  | _ => exact absurd rfl changed

/-- A Framer step writes the committed snapshot only in accept(), from PAR (R109). -/
theorem accepts_of_snap_ne {s : State} (busy : s.busy = true)
    (changed : (framerStep s).snap ≠ s.snap) : s.fsm = .par ∧ framerStep s = accept s := by
  have outcome := framerStep_outcome busy
  generalize framerStep s = t at changed outcome ⊢
  cases outcome with
  | accepts par => exact ⟨par, rfl⟩
  | rejects => exact absurd rfl changed
  | goesOn _ snap => exact absurd snap changed

/-- Settles O31: no Framer step writes FBUF, and of the commands only three store. -/
theorem fbufWrittenOnlyByStores : Obligations.FbufWrittenOnlyByStores := by
  intro s t h changed
  obtain ⟨_, rfl⟩ | ⟨w, i, ops, k, taken, decodes, effect⟩ | ⟨same, _⟩ := step_cases h
  · exact absurd (framerStep_keeps s).fbuf changed
  · obtain ⟨idle, stores⟩ := stores_of_fbuf_ne effect changed
    exact ⟨idle, w, i, ops, taken, decodes, stores⟩
  · exact absurd same changed

/-- Settles O32: the Framer writes the snapshot in accept() alone, and of the commands CLR and
DECODE clear it, each of which has one word. -/
theorem snapshotCommittedOnlyByAccept : Obligations.SnapshotCommittedOnlyByAccept := by
  intro s t h changed
  obtain ⟨busy, rfl⟩ | ⟨w, i, ops, k, taken, decodes, effect⟩ | ⟨_, same⟩ := step_cases h
  · obtain ⟨par, accepts⟩ := accepts_of_snap_ne busy changed
    exact .inl ⟨par, rfl, by simp [accepts], by simp [accepts]⟩
  · have word : encode i = w := encode_of_decode decodes
    obtain ⟨rfl, rfl⟩ | ⟨idle, rfl, rfl⟩ := clears_of_snap_ne effect changed
    · exact .inr (.inl ⟨rfl, rfl, ops, by rw [taken, ← word]; rfl⟩)
    · exact .inr (.inr ⟨rfl, rfl, idle, ops, by rw [taken, ← word]; rfl⟩)
  · exact absurd same changed

end Sys2Proof.Proofs
end

section
/-! PROOFS. Host accesses and the register map as a host reads it (10_state.md R21 to R31, R38 to
R40). -/

namespace Sys2Proof.Proofs

open Sys2Proof Sys2Proof.Machine

/-! ## Host accesses -/

/-- A 32-bit access at a multiple of 4 up to 0xFC exists (R40). -/
theorem wordAt_legal {off : Nat} (aligned : off % 4 = 0) (le : off ≤ 0xFC) :
    (wordAt off).legal = true := by
  simp [Access.legal, wordAt, aligned, le]

@[simp] theorem wordAt_off (off : Nat) : (wordAt off).off = off := rfl

theorem legal_eq_false {acc : Access} (h : acc.bytes ≠ 4 ∨ acc.off % 4 ≠ 0 ∨ 0xFC < acc.off) :
    acc.legal = false := by
  rw [Bool.eq_false_iff]
  intro legal
  simp only [Access.legal, Bool.and_eq_true, decide_eq_true_eq] at legal
  omega

theorem hostAccess_read {off : Nat} (name : Nat) (s : State) (aligned : off % 4 = 0)
    (le : off ≤ 0xFC) :
    hostAccess (.read (wordAt off) name) s = .next (noteRead name (readAt off s) s) := by
  simp [hostAccess, hostRead, wordAt_legal aligned le]

theorem hostAccess_commandOp (w : Word) (s : State) : hostAccess (commandOp w) s = runCommand w s :=
  rfl

theorem hostAccess_write_other {off : Nat} (w : Word) (s : State) (aligned : off % 4 = 0)
    (le : off ≤ 0xFC) (other : off ≠ 0x04) :
    hostAccess (.write (wordAt off) w) s = .next s := by
  simp [hostAccess, hostWrite, wordAt_legal aligned le, regOffset, other]

theorem runCommand_of_decode {w : Word} {i : Instr} (s : State) (h : decode w = .ok i) :
    runCommand w s = exec i s := by
  simp only [runCommand, h]

/-- The register map is a table: an offset has at most one register (R21). -/
theorem regAt_regOffset (r : Reg) : regAt (regOffset r) = some r := by
  cases r <;> rfl

theorem regOffset_of_regAt {off : Nat} {r : Reg} (h : regAt off = some r) : regOffset r = off := by
  unfold regAt at h
  split at h <;> cases h <;> rfl

theorem readAt_regOffset (r : Reg) (s : State) : readAt (regOffset r) s = readReg r s := by
  simp only [readAt, regAt_regOffset]

theorem readAt_unmapped {off : Nat} (s : State) (unmapped : ∀ r, regOffset r ≠ off) :
    readAt off s = 0 := by
  have noReg : regAt off = none :=
    Option.eq_none_iff_forall_ne_some.mpr fun r h => unmapped r (regOffset_of_regAt h)
  simp only [readAt, noReg]

/-- Settles O5: `advance` gives the host its turn, a command's word runs as the command, and the
word `withFetchWord` places is taken next. -/
theorem stepRunsTheCommand : Obligations.StepRunsTheCommand := by
  refine ⟨fun s w i ops decodes idle taken => ?_, fun s w i ops k decodes busy taken turns => ?_,
    fun s w i decodes => ?_⟩
  · rw [step, advance_host_idle idle taken, hostAccess_commandOp, runCommand_of_decode _ decodes]
  · rw [step, advance_host_busy busy taken turns, hostAccess_commandOp,
      runCommand_of_decode _ decodes]
  · rw [step, State.withFetchWord, tableWord_toNat, advance_withCommand,
      runCommand_of_decode _ decodes]

/-- Settles O6: the host's turn with a read notes the value and leaves the rest; which registers
there are is the table of R21. -/
theorem hostReadHasNoSideEffect : Obligations.HostReadHasNoSideEffect := by
  refine ⟨fun s off name ops aligned le idle taken => ?_,
    fun s off name k ops aligned le busy taken turns => ?_, readAt_regOffset,
    fun off s => readAt_unmapped s⟩
  · rw [step, advance_host_idle idle taken, hostAccess_read name _ aligned le]
    rfl
  · rw [step, advance_host_busy busy taken turns, hostAccess_read name _ aligned le]
    rfl

/-- Settles O7. -/
theorem hostWriteRule : Obligations.HostWriteRule :=
  ⟨fun s w => hostAccess_commandOp w s,
   fun s _ w aligned le other => hostAccess_write_other w s aligned le other⟩

/-- Settles O8: an access that is not legal is refused before anything is read or written. -/
theorem illegalAccessRefused : Obligations.IllegalAccessRefused := by
  intro acc v name s h
  have illegal := legal_eq_false h
  constructor
  · simp [hostAccess, hostWrite, illegal]
  · simp [hostAccess, hostRead, illegal]

/-! ## The fields of STATUS -/

/-- STATE, DERR, CERR and the bits above them (R24). -/
theorem statusWord_fields (s : State) :
    (statusWord s).extractLsb' 1 3 = s.fsm.code ∧ (statusWord s).extractLsb' 8 4 = s.derr.code ∧
    (statusWord s).extractLsb' 12 4 = s.cerr.code ∧ (statusWord s).extractLsb' 16 16 = 0 := by
  simp (disch := decide) only [statusWord, BitVec.extractLsb'_append_eq_of_le,
    BitVec.extractLsb'_append_eq_right, BitVec.extractLsb'_eq_self, Nat.reduceSub, true_and]
  rfl

/-- The five flags of STATUS, each one bit (R24). -/
theorem statusWord_flags (s : State) :
    (statusWord s).getLsbD 0 = s.busy ∧ (statusWord s).getLsbD 4 = s.done ∧
    (statusWord s).getLsbD 5 = s.accepted ∧ (statusWord s).getLsbD 6 = s.ckok ∧
    (statusWord s).getLsbD 7 = s.cmderr := by
  simp only [statusWord, BitVec.getLsbD_append, BitVec.getLsbD_ofBool]
  exact ⟨rfl, rfl, rfl, rfl, rfl⟩

/-- BUSY is 1 exactly when STATE is in 1..5 (R25). -/
theorem busy_iff_code (s : State) :
    s.busy = true ↔ 1 ≤ s.fsm.code.toNat ∧ s.fsm.code.toNat ≤ 5 := by
  unfold State.busy
  cases s.fsm <;> decide

/-- Settles O55: STATUS is at offset 0x08, and each field stands in its place. -/
theorem statusLayout : Obligations.StatusLayout := by
  intro s
  obtain ⟨busy, done, accepted, ckok, cmderr⟩ := statusWord_flags s
  obtain ⟨state, derr, cerr, upper⟩ := statusWord_fields s
  refine ⟨busy, state, done, accepted, ckok, cmderr, derr, cerr, upper, ?_⟩
  rw [show readAt 0x08 s = statusWord s from rfl, state]
  exact busy_iff_code s

/-! ## The fields of the other registers -/

/-- The number of two fields side by side: the lower one, and the upper one at its place. -/
theorem toNat_append_eq_add {n m : Nat} (hi : BitVec n) (lo : BitVec m) :
    (hi ++ lo).toNat = lo.toNat + 2 ^ m * hi.toNat := by
  rw [BitVec.toNat_append, ← Nat.shiftLeft_add_eq_or_of_lt lo.isLt, Nat.shiftLeft_eq, add_comm,
    mul_comm]

/-- Byte `j` of a word of four bytes counts 2 ^ (8 * j) (R43). -/
theorem le32_toNat (a b c d : Byte) : (le32 a b c d).toNat =
    a.toNat + 2 ^ 8 * b.toNat + 2 ^ 16 * c.toNat + 2 ^ 24 * d.toNat := by
  simp only [le32, toNat_append_eq_add]
  omega

theorem lkupWord_toNat (l : Lkup) : l.word.toNat = l.width.toNat + 256 * l.cls.code.toNat := by
  rw [Lkup.word, toNat_append_eq_add, toNat_append_eq_add]
  simp

theorem tel1_toNat (n : Snapshot) :
    n.tel1.toNat = n.fanSpeed.toNat + 2 ^ 16 * n.unitType.toNat := by
  rw [Snapshot.tel1, toNat_append_eq_add, toNat_append_eq_add]
  simp

/-- Settles O56: each register is the word of its fields in the places of R21 and R30. A field of
its own is zero-extended, and TEL0, FW0 and IDENT are four bytes each. -/
theorem registerLayout : Obligations.RegisterLayout := by
  intro s
  have extend {n : Nat} (x : BitVec n) (h : n ≤ 32) : (x.setWidth 32).toNat = x.toNat :=
    BitVec.toNat_setWidth_of_le h
  refine ⟨rfl, rfl, extend s.len (by decide), extend s.cursor (by decide),
    extend s.acc (by decide), extend s.rdata (by decide), ?lkup,
    toNat_append_eq_add 0#23 s.snap.valid, le32_toNat .., tel1_toNat s.snap, le32_toNat ..,
    toNat_append_eq_add 0#16 s.snap.fwYear, rfl, rfl, rfl, rfl, le32_toNat ..⟩
  case lkup =>
    rw [show readAt 0x1C s = s.lkup.word from rfl, lkupWord_toNat]
    cases s.lkup.cls <;> rfl

end Sys2Proof.Proofs
end

section
/-! PROOFS. The Framer's run computes the parse of the frame's bytes (43_response_framer.md R104 to
R108): one lemma per state of the decode, from PAR back to HDR. -/

namespace Sys2Proof.Proofs

open Sys2Proof Sys2Proof.Machine

/-! ## The equations of the parse -/

/-- The end of an item's parse: a payload of `w` bytes at offset `q` must fit, is decoded, and the
rest of the stream follows (R108). -/
def parsePayload (k q : Nat) (real : Byte) (w : Nat) (rest : List Byte) (n : Snapshot) :
    DecodeResult :=
  if w > rest.length then .rejected .truncatedBuffer q
  else parseParams k (q + w) (rest.drop w) (semantic real w (fun i => rest.getD i 0) n)

@[simp] theorem parseParams_nil (k pos : Nat) (n : Snapshot) :
    parseParams k pos [] n = .accepted n := by
  cases k <;> rfl

theorem parseParams_escaped (k pos : Nat) (w real : Byte) (rest : List Byte) (n : Snapshot) :
    parseParams (k + 1) pos (escapeCode :: w :: real :: rest) n =
      parsePayload k (pos + 3) real w.toNat rest n := by
  rw [parseParams, if_pos rfl, parsePayload]

theorem parseParams_escape_alone (k pos : Nat) (n : Snapshot) :
    parseParams (k + 1) pos [escapeCode] n = .rejected .truncatedBuffer (pos + 1) := by
  rw [parseParams, if_pos rfl]

theorem parseParams_escape_width (k pos : Nat) (w : Byte) (n : Snapshot) :
    parseParams (k + 1) pos [escapeCode, w] n = .rejected .truncatedBuffer (pos + 2) := by
  rw [parseParams, if_pos rfl]

theorem parseParams_plain {code w : Byte} (k pos : Nat) (rest : List Byte) (n : Snapshot)
    (plain : code ≠ escapeCode) (found : catalog code = some w) :
    parseParams (k + 1) pos (code :: rest) n = parsePayload k (pos + 1) code w.toNat rest n := by
  simp only [parseParams, if_neg plain, found, parsePayload]

theorem parseParams_unknown {code : Byte} (k pos : Nat) (rest : List Byte) (n : Snapshot)
    (plain : code ≠ escapeCode) (unknown : catalog code = none) :
    parseParams (k + 1) pos (code :: rest) n = .rejected .unknownParameter pos := by
  simp only [parseParams, if_neg plain, unknown]

/-! ## The parse of bytes in the frame buffer -/

theorem bytesAt_of_lt (m : Memory) {c p : Nat} (h : c < p) :
    bytesAt m c (p - c) = m.read c :: bytesAt m (c + 1) (p - (c + 1)) := by
  rw [show p - c = p - (c + 1) + 1 by omega, bytesAt]

theorem bytesAt_of_le (m : Memory) {c p : Nat} (h : p ≤ c) : bytesAt m c (p - c) = [] := by
  rw [Nat.sub_eq_zero_of_le h, bytesAt]

/-- A payload in the buffer is read at its offset. -/
theorem parsePayload_bytesAt (k : Nat) {q p : Nat} (real : Byte) (w : Nat) (m : Memory)
    (n : Snapshot) (h : q ≤ p) :
    parsePayload k q real w (bytesAt m q (p - q)) n =
      if p < q + w then .rejected .truncatedBuffer q
      else parseParams k (q + w) (bytesAt m (q + w) (p - (q + w)))
        (semantic real w (payloadAt m q) n) := by
  rw [parsePayload, bytesAt_length]
  by_cases fits : p < q + w
  · rw [if_pos fits, if_pos (by omega)]
  · rw [if_neg fits, if_neg (by omega), bytesAt_drop, Nat.sub_sub]
    congr 1
    exact semantic_congr _ _ _ fun i hi => bytesAt_getD m q (p - q) i (by omega)

theorem parseString_bytesAt (m : Memory) (c p : Nat) :
    parseString c (bytesAt m c (p - c)) =
      if c ≥ p then .error c
      else if c + 1 + (m.read c).toNat > p then .error (c + 1)
      else .ok ((m.read c).toNat, bytesAt m (c + 1 + (m.read c).toNat)
        (p - (c + 1 + (m.read c).toNat))) := by
  by_cases empty : c ≥ p
  · rw [if_pos empty, bytesAt_of_le m empty, parseString]
  · rw [if_neg empty, bytesAt_of_lt m (by omega), parseString, bytesAt_length, bytesAt_drop,
      Nat.sub_sub]
    by_cases long : c + 1 + (m.read c).toNat > p
    · rw [if_pos long, if_pos (by omega)]
    · rw [if_neg long, if_neg (by omega)]

theorem parseFunction_bytesAt (m : Memory) (c p : Nat) (n : Snapshot) :
    parseFunction c (bytesAt m c (p - c)) n =
      if p ≤ c then .rejected .truncatedBuffer c
      else if m.read c ≠ responseCode then .rejected .unexpectedFunction c
      else parseParams (p - (c + 1)) (c + 1) (bytesAt m (c + 1) (p - (c + 1))) n := by
  by_cases empty : p ≤ c
  · rw [if_pos empty, bytesAt_of_le m empty, parseFunction]
  · rw [if_neg empty, bytesAt_of_lt m (by omega), parseFunction, bytesAt_length]
    rfl

/-- The magic at the head of the bytes is the magic in the buffer (R67). -/
theorem take_three_eq_headerMagic_iff (m : Memory) {n : Nat} (h : 3 ≤ n) :
    (bytesAt m 0 n).take 3 = headerMagic ↔ headerAt m := by
  rw [bytesAt_take, Nat.min_eq_left h]
  simp [bytesAt, headerMagic, headerAt]

theorem parseFrame_of_short (m : Memory) {n : Nat} (h : n < 3) :
    parseFrame (bytesAt m 0 n) = .rejected .truncatedBuffer 0 := by
  rw [parseFrame, bytesAt_length, if_pos h]

theorem parseFrame_of_not_headerAt {m : Memory} {n : Nat} (h : 3 ≤ n) (magic : ¬ headerAt m) :
    parseFrame (bytesAt m 0 n) = .rejected .headerInvalid 0 := by
  rw [parseFrame, bytesAt_length, if_neg (by omega),
    if_pos (mt (take_three_eq_headerMagic_iff m h).mp magic)]

/-- The checks of CKS over the buffer, before the identity block (R105). -/
theorem parseFrame_of_headerAt {m : Memory} {n : Nat} (h : 3 ≤ n) (magic : headerAt m) :
    parseFrame (bytesAt m 0 n) =
      if n < 4 then .rejected .truncatedBuffer 0
      else if sum16 m 2 (n - 2) ≠ trailer m n then .rejected .checksumMismatch 0
      else parseIdentity 3 (bytesAt m 3 (n - 2 - 3)) := by
  rw [parseFrame, bytesAt_length, if_neg (by omega),
    if_neg (not_not.mpr ((take_three_eq_headerMagic_iff m h).mpr magic))]
  dsimp only
  rw [bytesAt_take, Nat.min_eq_left (Nat.sub_le n 2), checksumOf_bytesAt, bytesAt_drop,
    bytesAt_getD m 0 n (n - 2) (by omega), bytesAt_getD m 0 n (n - 1) (by omega), Nat.zero_add,
    Nat.zero_add, Nat.zero_add, trailer]

/-! ## The Framer's run -/

theorem framerRun_busy (k : Nat) {s : State} (busy : s.busy = true) :
    framerRun (k + 1) s = framerRun k (framerStep s) := by
  rw [framerRun_succ, if_pos busy]

theorem decodeResult_run_accept (k : Nat) (s : State) :
    decodeResult (framerRun k (accept s)) = some (.accepted s.shadow) := by
  rw [framerRun_idle k _ (accept_busy s)]
  rfl

theorem decodeResult_run_reject (k : Nat) (code : ErrorCode) {pos : Nat} (s : State)
    (h : pos < 256) :
    decodeResult (framerRun k (reject code pos s)) = some (.rejected code pos) := by
  rw [framerRun_idle k _ (reject_busy code pos s)]
  simp [decodeResult, Nat.mod_eq_of_lt h]

/-- From PAR on the run computes the parse of the stream up to PEND (R108). Every PAR step that
goes on takes at least a code, so CURSOR reaches PEND in at most PEND - CURSOR + 1 steps. -/
theorem decodeResult_run_par {j k c p : Nat} {s : State} (par : s.fsm = .par)
    (cursor : s.cursor.toNat = c) (pend : s.pend.toNat = p) (bound : c ≤ p) (le : p ≤ 200)
    (steps : p < c + k) (fuel : p ≤ c + j) :
    decodeResult (framerRun k s) =
      some (parseParams j c (bytesAt s.fbuf c (p - c)) s.shadow) := by
  induction k generalizing s c j with
  | zero => omega
  | succ k ih =>
    rw [framerRun_busy k (by rw [State.busy, par]), framerStep_par par, framerPar, cursor, pend]
    dsimp only
    by_cases atEnd : c = p
    · rw [if_pos atEnd, bytesAt_of_le _ atEnd.ge, parseParams_nil, decodeResult_run_accept]
    obtain ⟨j, rfl⟩ : ∃ i, j = i + 1 := ⟨j - 1, by omega⟩
    have take (real : Byte) (w q : Nat) (hc : c < q) (hq : q ≤ p) :
        decodeResult (framerRun k (takeParameter real w q s)) =
          some (parsePayload j q real w (bytesAt s.fbuf q (p - q)) s.shadow) := by
      rw [parsePayload_bytesAt _ _ _ _ _ hq]
      have ends := takeParameter_cases real w q s
      rw [pend] at ends
      obtain ⟨long, e⟩ | ⟨fits, e⟩ := ends <;> rw [e]
      · rw [if_pos long, decodeResult_run_reject _ _ _ (by omega)]
      · rw [if_neg (by omega)]
        exact ih par (Nat.mod_eq_of_lt (by omega)) pend fits (by omega) (by omega)
    rw [if_neg atEnd, bytesAt_of_lt _ (by omega)]
    by_cases escape : s.fbuf.read c = escapeCode
    · rw [if_pos escape, escape]
      by_cases alone : c + 1 ≥ p
      · rw [if_pos alone, bytesAt_of_le _ alone, parseParams_escape_alone,
          decodeResult_run_reject _ _ _ (by omega)]
      rw [if_neg alone, bytesAt_of_lt _ (by omega)]
      by_cases width : c + 2 ≥ p
      · rw [if_pos width, bytesAt_of_le _ width, parseParams_escape_width,
          decodeResult_run_reject _ _ _ (by omega)]
      · rw [if_neg width, bytesAt_of_lt _ (by omega), parseParams_escaped,
          take _ _ _ (by omega) (by omega)]
    · rw [if_neg escape]
      cases entry : catalog (s.fbuf.read c) with
      | none =>
        rw [parseParams_unknown _ _ _ _ escape entry]
        exact decodeResult_run_reject _ _ _ (by omega)
      | some w =>
        rw [parseParams_plain _ _ _ _ escape entry]
        exact take _ _ _ (by omega) (by omega)

/-- From FUN on (R107). -/
theorem decodeResult_run_fun {k c p : Nat} {s : State} (fn : s.fsm = .fn)
    (cursor : s.cursor.toNat = c) (pend : s.pend.toNat = p) (bound : c ≤ 200) (le : p ≤ 200)
    (steps : p ≤ c + k) :
    decodeResult (framerRun (k + 1) s) =
      some (parseFunction c (bytesAt s.fbuf c (p - c)) s.shadow) := by
  rw [framerRun_busy k (by rw [State.busy, fn]), framerStep_fun fn, parseFunction_bytesAt]
  have step := framerFun_cases s
  rw [cursor, pend] at step
  obtain ⟨empty, e⟩ | ⟨lt, other, e⟩ | ⟨lt, response, e⟩ := step <;> rw [e]
  · rw [if_pos empty, decodeResult_run_reject _ _ _ (by omega)]
  · rw [if_neg (by omega), if_pos other, decodeResult_run_reject _ _ _ (by omega)]
  · rw [if_neg (by omega), if_neg (not_not.mpr response)]
    exact decodeResult_run_par rfl (Nat.mod_eq_of_lt (by omega)) pend lt le (by omega) (by omega)

/-- From IDN on (R106): the machine and the parse make the same four checks in the same order. -/
theorem decodeResult_run_idn {k c p : Nat} {s : State} (idn : s.fsm = .idn)
    (shadow : s.shadow = Snapshot.zero) (cursor : s.cursor.toNat = c) (pend : s.pend.toNat = p)
    (bound : c ≤ 200) (le : p ≤ 200) (steps : p ≤ k) :
    decodeResult (framerRun (k + 2) s) =
      some (parseIdentity c (bytesAt s.fbuf c (p - c))) := by
  rw [framerRun_busy (k + 1) (by rw [State.busy, idn]), framerStep_idn idn, parseIdentity,
    parseString_bytesAt, framerIdn, cursor, pend, shadow]
  dsimp only
  split
  · exact decodeResult_run_reject _ _ _ (by omega)
  split
  · exact decodeResult_run_reject _ _ _ (by omega)
  dsimp only
  rw [parseString_bytesAt]
  split
  · exact decodeResult_run_reject _ _ _ (by omega)
  split
  · exact decodeResult_run_reject _ _ _ (by omega)
  dsimp only
  rw [show c + 2 + (s.fbuf.read c).toNat = c + 1 + (s.fbuf.read c).toNat + 1 by omega]
  exact decodeResult_run_fun rfl (Nat.mod_eq_of_lt (by omega)) pend (by omega) le (by omega)

/-- From CKS on (R105). -/
theorem decodeResult_run_cks {k n : Nat} {s : State} (cks : s.fsm = .cks)
    (shadow : s.shadow = Snapshot.zero) (cursor : s.cursor = 3) (len : s.len.toNat = n)
    (three : 3 ≤ n) (le : n ≤ 200) (magic : headerAt s.fbuf) (steps : n ≤ k + 2) :
    decodeResult (framerRun (k + 3) s) = some (parseFrame (bytesAt s.fbuf 0 n)) := by
  rw [framerRun_busy (k + 2) (by rw [State.busy, cks]), framerStep_cks cks,
    parseFrame_of_headerAt three magic]
  have step := framerCks_cases s
  rw [len] at step
  obtain ⟨short, e⟩ | ⟨four, sum, e⟩ | ⟨four, sum, e⟩ := step <;> rw [e]
  · rw [if_pos short, decodeResult_run_reject _ _ _ (by omega)]
  · rw [if_neg (by omega), if_pos sum, decodeResult_run_reject _ _ _ (by omega)]
  · rw [if_neg (by omega), if_neg (not_not.mpr sum)]
    exact decodeResult_run_idn rfl shadow (congrArg BitVec.toNat cursor)
      (by bv_omega) (by omega) (by omega) (by omega)

/-- From HDR on (R104). -/
theorem decodeResult_run_hdr {k n : Nat} {s : State} (hdr : s.fsm = .hdr)
    (shadow : s.shadow = Snapshot.zero) (len : s.len.toNat = n) (le : n ≤ 200)
    (steps : n ≤ k + 2) :
    decodeResult (framerRun (k + 4) s) = some (parseFrame (bytesAt s.fbuf 0 n)) := by
  rw [framerRun_busy (k + 3) (by rw [State.busy, hdr]), framerStep_hdr hdr]
  have step := framerHdr_cases s
  rw [len] at step
  obtain ⟨short, e⟩ | ⟨three, magic, e⟩ | ⟨three, magic, e⟩ := step <;> rw [e]
  · rw [parseFrame_of_short _ short, decodeResult_run_reject _ _ _ (by omega)]
  · rw [parseFrame_of_not_headerAt three magic, decodeResult_run_reject _ _ _ (by omega)]
  · exact decodeResult_run_cks rfl shadow rfl len three le magic steps

/-- The simulation: from DECODE on the Framer computes the parse of the frame's bytes, and its
LEN + 5 steps are enough (R118, R120). -/
theorem decodeResult_run_startDecode (s : State) (len : s.len.toNat ≤ 200) :
    decodeResult (framerRun (s.len.toNat + 5) (startDecode s)) =
      some (parseFrame (bytesAt s.fbuf 0 s.len.toNat)) :=
  decodeResult_run_hdr (k := s.len.toNat + 1) (startDecode_fsm s) (startDecode_shadow s) rfl len
    (by omega)

end Sys2Proof.Proofs
end

section
/-! PROOFS. The parse accepts exactly the response datagrams of the wire format (30_encoding.md R66
to R72), in two directions for each part of a frame: it reads the part back, and what it accepts is
such a part. With the Framer's simulation these are O51 and O52. -/

namespace Sys2Proof.Proofs

open Sys2Proof Sys2Proof.Machine

/-! ## The parameter stream -/

/-- A payload at the head of the bytes is read back. -/
theorem parsePayload_append (k q : Nat) (real : Byte) (payload tail : List Byte) (n : Snapshot) :
    parsePayload k q real payload.length (payload ++ tail) n =
      parseParams k (q + payload.length) tail
        (semantic real payload.length (fun i => payload.getD i 0) n) := by
  rw [parsePayload, if_neg (by simp), List.drop_left]
  congr 1
  exact semantic_congr _ _ _ fun i hi => List.getD_append _ _ _ _ hi

theorem parsePayload_accepted {k q w : Nat} {real : Byte} {rest : List Byte} {n x : Snapshot}
    (h : parsePayload k q real w rest n = .accepted x) :
    ∃ payload tail, rest = payload ++ tail ∧ payload.length = w ∧
      parseParams k (q + w) tail (semantic real w (fun i => payload.getD i 0) n) =
        .accepted x := by
  have fits : w ≤ rest.length := by
    by_contra long
    rw [parsePayload, if_pos (by omega)] at h
    cases h
  have length : (rest.take w).length = w := by simp [fits]
  have split := parsePayload_append k q real (rest.take w) (rest.drop w) n
  rw [List.take_append_drop, length, h] at split
  exact ⟨rest.take w, rest.drop w, (List.take_append_drop w rest).symm, length, split.symm⟩

/-- The parse of a stream of legal items folds them (R72, R108). -/
theorem parseParams_streamBytes {items : List StreamItem} (legal : ∀ i ∈ items, i.legal)
    {k : Nat} (fuel : (streamBytes items).length ≤ k) (pos : Nat) (n : Snapshot) :
    parseParams k pos (streamBytes items) n = .accepted (foldStream items n) := by
  induction items generalizing k pos n with
  | nil => exact parseParams_nil k pos n
  | cons i is ih =>
    have tail {k : Nat} := ih (fun j hj => legal j (List.mem_cons_of_mem i hj)) (k := k)
    have head := legal i List.mem_cons_self
    cases i with
    | plain code payload =>
      obtain ⟨plain, w, found, width⟩ := head
      simp only [streamBytes, StreamItem.bytes, List.cons_append, List.length_cons,
        List.length_append] at fuel ⊢
      obtain ⟨k, rfl⟩ : ∃ j, k = j + 1 := ⟨k - 1, by omega⟩
      rw [parseParams_plain _ _ _ _ plain found, width, parsePayload_append, tail (by omega),
        foldStream]
    | escaped real payload =>
      have width : (BitVec.ofNat 8 payload.length).toNat = payload.length :=
        Nat.mod_eq_of_lt (Nat.lt_succ_of_le head)
      simp only [streamBytes, StreamItem.bytes, List.cons_append, List.length_cons,
        List.length_append] at fuel ⊢
      obtain ⟨k, rfl⟩ : ∃ j, k = j + 1 := ⟨k - 1, by omega⟩
      rw [← escapeCode, parseParams_escaped, width, parsePayload_append, tail (by omega),
        foldStream]

/-- A parse of parameters accepts only a stream of legal items (R72, R108). -/
theorem parseParams_accepted {k pos : Nat} {bs : List Byte} {n x : Snapshot}
    (h : parseParams k pos bs n = .accepted x) :
    ∃ items, (∀ i ∈ items, i.legal) ∧ bs = streamBytes items ∧ x = foldStream items n := by
  induction k generalizing pos bs n with
  | zero =>
    cases bs with
    | nil => cases h; exact ⟨[], by simp, rfl, rfl⟩
    | cons => cases h
  | succ k ih =>
    cases bs with
    | nil => cases h; exact ⟨[], by simp, rfl, rfl⟩
    | cons code rest =>
      by_cases escape : code = escapeCode
      · subst escape
        match rest with
        | [] => rw [parseParams_escape_alone] at h; cases h
        | [w] => rw [parseParams_escape_width] at h; cases h
        | w :: real :: rest =>
          rw [parseParams_escaped] at h
          obtain ⟨payload, tail, rfl, width, h⟩ := parsePayload_accepted h
          obtain ⟨items, legal, rfl, rfl⟩ := ih h
          refine ⟨.escaped real payload :: items, ?_, ?_, ?_⟩
          · exact List.forall_mem_cons.mpr ⟨by rw [StreamItem.legal]; omega, legal⟩
          · simp [streamBytes, StreamItem.bytes, width, escapeCode]
          · rw [foldStream, width]
      · cases entry : catalog code with
        | none => rw [parseParams_unknown _ _ _ _ escape entry] at h; cases h
        | some w =>
          rw [parseParams_plain _ _ _ _ escape entry] at h
          obtain ⟨payload, tail, rfl, width, h⟩ := parsePayload_accepted h
          obtain ⟨items, legal, rfl, rfl⟩ := ih h
          refine ⟨.plain code payload :: items, ?_, rfl, ?_⟩
          · exact List.forall_mem_cons.mpr ⟨⟨escape, w, entry, width.symm⟩, legal⟩
          · rw [foldStream, width]

/-! ## The function byte and the identity block -/

theorem parseFunction_response {items : List StreamItem} (legal : ∀ i ∈ items, i.legal)
    (pos : Nat) (n : Snapshot) :
    parseFunction pos (FunctionCode.response.code :: streamBytes items) n =
      .accepted (foldStream items n) := by
  rw [parseFunction, if_neg (not_not.mpr rfl), parseParams_streamBytes legal le_rfl]

/-- Every function code but RESPONSE is rejected (R107). -/
theorem parseFunction_accepted {pos : Nat} {bs : List Byte} {n x : Snapshot}
    (h : parseFunction pos bs n = .accepted x) :
    ∃ items, (∀ i ∈ items, i.legal) ∧ bs = FunctionCode.response.code :: streamBytes items ∧
      x = foldStream items n := by
  cases bs with
  | nil => cases h
  | cons f rest =>
    by_cases other : f ≠ FunctionCode.response.code
    · rw [parseFunction, if_pos other] at h
      cases h
    · rw [parseFunction, if_neg other] at h
      obtain ⟨items, legal, rfl, fields⟩ := parseParams_accepted h
      exact ⟨items, legal, by rw [not_not.mp other], fields⟩

theorem parseString_lengthPrefixed {str : List Byte} (h : str.length ≤ 255) (pos : Nat)
    (tail : List Byte) :
    parseString pos (lengthPrefixed str ++ tail) = .ok (str.length, tail) := by
  have width : (BitVec.ofNat 8 str.length).toNat = str.length :=
    Nat.mod_eq_of_lt (Nat.lt_succ_of_le h)
  rw [lengthPrefixed, List.cons_append, parseString, width, if_neg (by simp), List.drop_left]

theorem parseString_ok {pos n : Nat} {bs tail : List Byte}
    (h : parseString pos bs = .ok (n, tail)) :
    ∃ str, str.length = n ∧ bs = lengthPrefixed str ++ tail := by
  cases bs with
  | nil => cases h
  | cons l rest =>
    by_cases long : l.toNat > rest.length
    · rw [parseString, if_pos long] at h
      cases h
    · rw [parseString, if_neg long] at h
      cases h
      have length : (rest.take l.toNat).length = l.toNat := by simp; omega
      exact ⟨rest.take l.toNat, length, by simp [lengthPrefixed, length]⟩

/-- The identity block of a response is read back, with the place of both strings (R106). -/
theorem parseIdentity_response {id pw : List Byte} {items : List StreamItem}
    (legal : ∀ i ∈ items, i.legal) (idLen : id.length ≤ 255) (pwLen : pw.length ≤ 255) :
    parseIdentity 3 (lengthPrefixed id ++ (lengthPrefixed pw ++
      FunctionCode.response.code :: streamBytes items)) =
        .accepted (responseSnapshot id pw items) := by
  rw [parseIdentity, parseString_lengthPrefixed idLen]
  dsimp only
  rw [parseString_lengthPrefixed pwLen]
  exact parseFunction_response legal _ _

theorem parseIdentity_accepted {bs : List Byte} {x : Snapshot}
    (h : parseIdentity 3 bs = .accepted x) :
    ∃ id pw items, (∀ i ∈ items, i.legal) ∧
      bs = lengthPrefixed id ++ (lengthPrefixed pw ++
        FunctionCode.response.code :: streamBytes items) ∧
      x = responseSnapshot id pw items := by
  rw [parseIdentity] at h
  split at h
  · cases h
  next _ n rest first =>
  obtain ⟨id, rfl, rfl⟩ := parseString_ok first
  split at h
  · cases h
  next _ m rest second =>
  obtain ⟨pw, rfl, rfl⟩ := parseString_ok second
  obtain ⟨items, legal, rfl, rfl⟩ := parseFunction_accepted h
  exact ⟨id, pw, items, legal, rfl, rfl⟩

/-! ## The frame -/

@[simp] theorem sealFrame_length (body : List Byte) :
    (sealFrame body).length = body.length + 2 := by
  simp [sealFrame]

/-- The last two bytes of a sealed frame are its body's checksum (R70). -/
theorem sealFrame_trailer (body : List Byte) :
    le16 ((sealFrame body).getD body.length 0) ((sealFrame body).getD (body.length + 1) 0) =
      checksumOf body := by
  simp [sealFrame]

/-- A frame whose last two bytes are the checksum of the bytes before them is sealed (R70). -/
theorem eq_sealFrame {bs : List Byte} (h : 2 ≤ bs.length)
    (sum : checksumOf (bs.take (bs.length - 2)) =
      le16 (bs.getD (bs.length - 2) 0) (bs.getD (bs.length - 1) 0)) :
    bs = sealFrame (bs.take (bs.length - 2)) := by
  rw [sealFrame, sum, lowByte_le16, highByte_le16]
  conv_lhs => rw [← List.take_append_drop (bs.length - 2) bs]
  rw [List.drop_eq_getElem_cons (by omega), List.drop_eq_getElem_cons (by omega),
    List.drop_eq_nil_of_le (by omega), List.getD_eq_getElem _ _ (by omega),
    List.getD_eq_getElem _ _ (by omega)]
  simp only [show bs.length - 2 + 1 = bs.length - 1 by omega]

/-- Past the magic and the checksum a sealed frame is parsed from its identity block on (R104,
R105). -/
theorem parseFrame_sealFrame (rest : List Byte) :
    parseFrame (sealFrame (headerMagic ++ rest)) = parseIdentity 3 rest := by
  have length : (headerMagic ++ rest).length = rest.length + 3 := by simp [headerMagic]
  have head : (sealFrame (headerMagic ++ rest)).take 3 = headerMagic := by
    simp [sealFrame, headerMagic]
  have body : (sealFrame (headerMagic ++ rest)).take (rest.length + 3) = headerMagic ++ rest := by
    rw [sealFrame, List.take_left' length]
  have trailer := sealFrame_trailer (headerMagic ++ rest)
  rw [length] at trailer
  rw [parseFrame, sealFrame_length, length, if_neg (by omega), if_neg (not_not.mpr head),
    if_neg (by omega)]
  dsimp only
  rw [Nat.add_sub_cancel, body, show rest.length + 3 + 2 - 1 = rest.length + 3 + 1 by omega,
    trailer, if_neg (not_not.mpr rfl), List.drop_left' (by simp [headerMagic])]

theorem frame_response (id pw : List Byte) (items : List StreamItem) :
    frame id pw .response (streamBytes items) =
      sealFrame (headerMagic ++ (lengthPrefixed id ++ (lengthPrefixed pw ++
        FunctionCode.response.code :: streamBytes items))) := by
  simp [frame, frameBody]

/-- Settles O53: the trailer is two bytes, and each string has one length byte. -/
theorem outboundFrameLength : Obligations.OutboundFrameLength := by
  intro id pw params f
  simp only [frame, sealFrame_length, frameBody, headerMagic, lengthPrefixed, List.length_append,
    List.length_cons, List.length_nil]
  omega

/-- The parse reads a response of the wire format back (R66, R72). -/
theorem parseFrame_response {id pw : List Byte} {items : List StreamItem}
    (legal : ∀ i ∈ items, i.legal)
    (length : (frame id pw .response (streamBytes items)).length ≤ 200) :
    parseFrame (frame id pw .response (streamBytes items)) =
      .accepted (responseSnapshot id pw items) := by
  rw [outboundFrameLength] at length
  rw [frame_response, parseFrame_sealFrame,
    parseIdentity_response legal (by omega) (by omega)]

/-- The parse accepts only a response of the wire format (R66, R67, R70, R72). -/
theorem parseFrame_accepted {bs : List Byte} {x : Snapshot} (h : parseFrame bs = .accepted x) :
    ∃ id pw items, (∀ i ∈ items, i.legal) ∧
      bs = frame id pw .response (streamBytes items) ∧ x = responseSnapshot id pw items := by
  rw [parseFrame] at h
  split_ifs at h with short other four
  dsimp only at h
  split_ifs at h with mismatch
  generalize e : bs.take (bs.length - 2) = body at h mismatch
  obtain ⟨id, pw, items, legal, rest, fields⟩ := parseIdentity_accepted h
  refine ⟨id, pw, items, legal, ?_, fields⟩
  have long : body.length = bs.length - 2 := by rw [← e, List.length_take]; omega
  have notEmpty : 0 < (body.drop 3).length := by simp [rest, lengthPrefixed]
  rw [List.length_drop] at notEmpty
  have magic : body.take 3 = headerMagic := by
    rw [← e, List.take_take, Nat.min_eq_left (by omega), not_not.mp other]
  have sealed : bs = sealFrame body := by
    rw [← e]; exact eq_sealFrame (by omega) (by rw [e]; exact not_not.mp mismatch)
  rw [frame_response, ← rest, ← magic, List.take_append_drop, sealed]

/-! ## The fields of an accepted frame -/

theorem foldStream_ident (items : List StreamItem) (n : Snapshot) :
    (foldStream items n).idOff = n.idOff ∧ (foldStream items n).idLen = n.idLen ∧
    (foldStream items n).pwOff = n.pwOff ∧ (foldStream items n).pwLen = n.pwLen := by
  induction items generalizing n with
  | nil => exact ⟨rfl, rfl, rfl, rfl⟩
  | cons i is ih =>
    rw [foldStream_cons]
    obtain ⟨_, idOff, idLen, pwOff, pwLen⟩ :=
      semantic_ident i.code i.payload.length (fun k => i.payload.getD k 0) n
    rw [← idOff, ← idLen, ← pwOff, ← pwLen]
    exact ih _

theorem snap_of_accepted {s : State} {x : Snapshot}
    (h : decodeResult s = some (.accepted x)) : s.snap = x := by
  unfold decodeResult at h
  split at h <;> cases h
  rfl

/-- The identity registers of a response name the place of both strings (R31, R106). -/
theorem responseSnapshot_ident {id pw : List Byte} (items : List StreamItem)
    (idLen : 5 + id.length ≤ 255) (pwLen : pw.length ≤ 255) :
    (responseSnapshot id pw items).idOff.toNat = 4 ∧
    (responseSnapshot id pw items).idLen.toNat = id.length ∧
    (responseSnapshot id pw items).pwOff.toNat = 5 + id.length ∧
    (responseSnapshot id pw items).pwLen.toNat = pw.length := by
  rw [responseSnapshot]
  obtain ⟨h₁, h₂, h₃, h₄⟩ := foldStream_ident items
    (storeIdent 4 id.length (5 + id.length) pw.length Snapshot.zero)
  rw [h₁, h₂, h₃, h₄]
  exact ⟨rfl, Nat.mod_eq_of_lt (by omega), Nat.mod_eq_of_lt (by omega),
    Nat.mod_eq_of_lt (by omega)⟩

/-- A part of the frame stands in the buffer at the length of what comes before it. -/
theorem bytesAt_middle {m : Memory} {n : Nat} {pre mid post : List Byte}
    (h : bytesAt m 0 n = pre ++ (mid ++ post)) : bytesAt m pre.length mid.length = mid := by
  have length := congrArg List.length h
  rw [bytesAt_length, List.length_append, List.length_append] at length
  rw [length, bytesAt_append, bytesAt_append, Nat.zero_add] at h
  have rest := (List.append_inj h (bytesAt_length ..)).2
  exact (List.append_inj rest (bytesAt_length ..)).1

/-- Both identity strings stand in a response at the place the registers name (R66, R68). -/
theorem bytesAt_identity {m : Memory} {n : Nat} {id pw params : List Byte} {f : FunctionCode}
    (h : bytesAt m 0 n = frame id pw f params) :
    bytesAt m 4 id.length = id ∧ bytesAt m (5 + id.length) pw.length = pw := by
  obtain ⟨rest, split⟩ : ∃ rest, frame id pw f params =
      headerMagic ++ (lengthPrefixed id ++ (lengthPrefixed pw ++ rest)) :=
    ⟨f.code :: params ++ (sealFrame (frameBody id pw f.code params)).drop
        (frameBody id pw f.code params).length, by simp [frame, sealFrame, frameBody]⟩
  rw [split] at h
  constructor
  · exact bytesAt_middle (pre := headerMagic ++ [BitVec.ofNat 8 id.length])
      (h.trans (List.append_assoc _ [_] _).symm)
  · have second := bytesAt_middle (mid := pw) (post := rest)
      (pre := headerMagic ++ lengthPrefixed id ++ [BitVec.ofNat 8 pw.length])
      (h.trans (by simp [lengthPrefixed]))
    simpa [headerMagic, lengthPrefixed, Nat.add_comm 5] using second

theorem exec_decode_idle {s : State} (idle : s.busy = false) :
    exec .decode s = .next (startDecode s) := whenIdle_idle (fun s => .next (startDecode s)) idle

/-- Settles O51: the Framer computes the parse (`decodeResult_run_startDecode`), and the parse reads
a response back (`parseFrame_response`). -/
theorem wellFormedResponseAccepted : Obligations.WellFormedResponseAccepted := by
  intro s id pw items idle legal bytes len
  have length : (frame id pw .response (streamBytes items)).length ≤ 200 := by
    rw [← bytes, bytesAt_length]; exact len
  have result := decodeResult_run_startDecode s len
  rw [bytes, parseFrame_response legal length] at result
  rw [outboundFrameLength] at length
  obtain ⟨idOff, idLen, pwOff, pwLen⟩ :=
    responseSnapshot_ident (id := id) (pw := pw) items (by omega) (by omega)
  obtain ⟨idBytes, pwBytes⟩ := bytesAt_identity bytes
  have fbuf := (framerRun_keeps (s.len.toNat + 5) (startDecode s)).fbuf
  refine ⟨startDecode s, exec_decode_idle idle, result, ?_, ?_⟩
  · rw [deviceIdOf, fbuf, snap_of_accepted result, idOff, idLen, startDecode_fbuf, idBytes]
  · rw [passwordOf, fbuf, snap_of_accepted result, pwOff, pwLen, startDecode_fbuf, pwBytes]

/-- Settles O52: the Framer computes the parse (`decodeResult_run_startDecode`), and the parse
accepts only a response (`parseFrame_accepted`). -/
theorem onlyWellFormedResponsesAccepted : Obligations.OnlyWellFormedResponsesAccepted := by
  intro s t n idle len started accepted
  obtain rfl := Host.Outcome.next.inj ((exec_decode_idle idle).symm.trans started)
  rw [decodeResult_run_startDecode s len] at accepted
  exact parseFrame_accepted (Option.some.inj accepted)

end Sys2Proof.Proofs
end

section
/-! PROOFS. The command words, the poll of WAIT and SEAL over a frame (30_encoding.md R58 to R65,
R70, R73). -/

namespace Sys2Proof.Proofs

open Sys2Proof Sys2Proof.Machine

/-! ## Encoding -/

/-- A command word whose unused fields are 0 decodes to its opcode's command (R60). -/
theorem decode_commandWord {op a b : Byte} {u : OpcodeUse} {i : Instr}
    (use : opcodeUse op.toNat = some u) (a0 : u.usesA = false → a = 0)
    (b0 : u.usesB = false → b = 0) (make : i = u.make a b) :
    decode (commandWord op a b) = .ok i := by
  rw [decode_ok_iff, opField_commandWord, rsvField_commandWord, aField_commandWord,
    bField_commandWord]
  exact ⟨u, use, rfl, a0, b0, make⟩

/-- Settles O1: the opcode map's row of each command gives it back. -/
theorem decodeOfEncode : Obligations.DecodeOfEncode := by
  intro i
  cases i <;> rw [encode] <;> exact decode_commandWord rfl (by simp) (by simp) rfl

/-- Settles O2: a word that decodes is made of the fields its command's encoding has. -/
theorem encodeOfDecode : Obligations.EncodeOfDecode := fun _ _ => encode_of_decode

/-- Settles O4: each word is the encoding of its command. -/
theorem writtenOutWordsDecode : Obligations.WrittenOutWordsDecode :=
  ⟨decodeOfEncode .nop, decodeOfEncode (.wrb 199 1), decodeOfEncode (.setlen 10),
   decodeOfEncode (.push 0xFD), decodeOfEncode (.ckadd 2), decodeOfEncode (.lookup 0x7C),
   decodeOfEncode .decode⟩

/-! ## Illegal encodings -/

/-- Two words are equal when their four fields are (R58). -/
theorem word_ext_iff (w v : Word) :
    w = v ↔ opField w = opField v ∧ rsvField w = rsvField v ∧ aField w = aField v ∧
      bField w = bField v := by
  constructor
  · rintro rfl
    exact ⟨rfl, rfl, rfl, rfl⟩
  · rintro ⟨op, rsv, a, b⟩
    rw [word_eq_fields w, op, rsv, a, b, ← word_eq_fields]

/-- The bits R60 fixes for an opcode: OP, RSV and the operand fields it does not use. -/
def fixedMask (u : OpcodeUse) : Word :=
  0xFF#8 ++ 0xFF#8 ++ (if u.usesA then 0#8 else 0xFF#8) ++ (if u.usesB then 0#8 else 0xFF#8)

/-- The table's masks and matches are the opcode map's. -/
theorem opcodeTable_eq_opcodeUse :
    opcodeTable.map (fun r => (r.mask, r.matchBits)) =
      (List.range 13).filterMap fun k =>
        (opcodeUse k).map fun u => (fixedMask u, commandWord (BitVec.ofNat 8 k) 0 0) := by
  decide

theorem fields_fixedMask (u : OpcodeUse) :
    opField (fixedMask u) = BitVec.allOnes 8 ∧ rsvField (fixedMask u) = BitVec.allOnes 8 ∧
    aField (fixedMask u) = (if u.usesA then 0#8 else BitVec.allOnes 8) ∧
    bField (fixedMask u) = (if u.usesB then 0#8 else BitVec.allOnes 8) := by
  unfold fixedMask
  cases u.usesA <;> cases u.usesB <;> decide

theorem fields_and (w v : Word) :
    opField (w &&& v) = opField w &&& opField v ∧ rsvField (w &&& v) = rsvField w &&& rsvField v ∧
    aField (w &&& v) = aField w &&& aField v ∧ bField (w &&& v) = bField w &&& bField v :=
  ⟨BitVec.extractLsb'_and, BitVec.extractLsb'_and, BitVec.extractLsb'_and, BitVec.extractLsb'_and⟩

/-- A word has an opcode's fixed bits when its other fields than the used operands are right. -/
theorem and_fixedMask_iff (w : Word) (u : OpcodeUse) (op : Byte) :
    w &&& fixedMask u = commandWord op 0 0 ↔
      opField w = op ∧ rsvField w = 0 ∧ (u.usesA = false → aField w = 0) ∧
        (u.usesB = false → bField w = 0) := by
  obtain ⟨opMask, rsvMask, aMask, bMask⟩ := fields_fixedMask u
  obtain ⟨opAnd, rsvAnd, aAnd, bAnd⟩ := fields_and w (fixedMask u)
  rw [word_ext_iff, opField_commandWord, rsvField_commandWord, aField_commandWord,
    bField_commandWord, opAnd, rsvAnd, aAnd, bAnd, opMask, rsvMask, aMask, bMask]
  cases u.usesA <;> cases u.usesB <;>
    simp only [BitVec.ofNat_eq_ofNat, BitVec.and_allOnes, BitVec.and_zero, reduceIte, reduceCtorEq,
      true_imp_iff, false_imp_iff]

/-- A word has a row of the table exactly when its opcode is in the map, RSV is 0 and the operand
fields the opcode does not use are 0 (R60, R61). -/
theorem legalWord_iff (w : Word) :
    legalWord w = true ↔ ∃ u, opcodeUse (opField w).toNat = some u ∧ rsvField w = 0 ∧
      (u.usesA = false → aField w = 0) ∧ (u.usesB = false → bField w = 0) := by
  have rows : legalWord w = true ↔
      ∃ p ∈ opcodeTable.map (fun r => (r.mask, r.matchBits)), w &&& p.1 = p.2 := by
    simp only [legalWord, OpcodeRow.fits, List.any_eq_true, beq_iff_eq, List.mem_map,
      exists_exists_and_eq_and]
  rw [rows, opcodeTable_eq_opcodeUse]
  simp only [List.mem_filterMap, List.mem_range, Option.map_eq_some_iff]
  constructor
  · rintro ⟨_, ⟨k, lt, u, use, rfl⟩, fits⟩
    obtain ⟨op, rest⟩ := (and_fixedMask_iff w u _).mp fits
    refine ⟨u, ?_, rest⟩
    rw [op, BitVec.toNat_ofNat, Nat.mod_eq_of_lt (by omega), use]
  · rintro ⟨u, use, rest⟩
    refine ⟨_, ⟨(opField w).toNat, Nat.lt_succ_of_le (opcodeUse_cases use), u, use, rfl⟩, ?_⟩
    exact (and_fixedMask_iff w u _).mpr ⟨by simp, rest⟩

/-- The opcode map by its columns (R60). -/
theorem opcodeUse_columns {n : Nat} (h : n ≤ 0x0C) :
    ∃ u, opcodeUse n = some u ∧ (u.usesA = false ↔ n ∉ [0x02, 0x03, 0x04, 0x0B]) ∧
      (u.usesB = false ↔ n ∉ [0x02, 0x05, 0x07]) := by
  interval_cases n <;> exact ⟨_, rfl, by decide, by decide⟩

/-- The decoder refuses exactly the words no row of the table fits. -/
theorem legalWord_iff_decodes (w : Word) : legalWord w = true ↔ ∃ i, decode w = .ok i := by
  simp only [legalWord_iff, decode_ok_iff]
  constructor
  · rintro ⟨u, use, rsv, a0, b0⟩
    exact ⟨_, u, use, rsv, a0, b0, rfl⟩
  · rintro ⟨_, u, use, rsv, a0, b0, _⟩
    exact ⟨u, use, rsv, a0, b0⟩

theorem illegalWord_iff_decode_error (w : Word) :
    legalWord w = false ↔ ∃ e, decode w = .error e := by
  rw [← Bool.not_eq_true, legalWord_iff_decodes]
  cases decode w <;> simp

/-- R61's three cases of an illegal encoding. -/
theorem illegalWord_iff (w : Word) : legalWord w = false ↔
    0x0C < (opField w).toNat ∨ rsvField w ≠ 0 ∨
    ((opField w).toNat ∉ [0x02, 0x03, 0x04, 0x0B] ∧ aField w ≠ 0) ∨
    ((opField w).toNat ∉ [0x02, 0x05, 0x07] ∧ bField w ≠ 0) := by
  rw [← Bool.not_eq_true, legalWord_iff]
  by_cases le : (opField w).toNat ≤ 0x0C
  · obtain ⟨u, use, usesA, usesB⟩ := opcodeUse_columns le
    simp only [use, Option.some.injEq, exists_eq_left', usesA, usesB, not_and_or,
      Classical.not_imp, not_lt.mpr le, false_or, Ne]
  · have noUse : ¬ ∃ u, opcodeUse (opField w).toNat = some u :=
      fun ⟨_, use⟩ => le (opcodeUse_cases use)
    exact iff_of_true (fun ⟨u, use, _⟩ => noUse ⟨u, use⟩) (.inl (not_le.mp le))

/-- Settles O3: the table, the fields and the decoder draw one line, and CMD answers every word
beyond it with ILLEGAL_COMMAND. -/
theorem illegalEncodings : Obligations.IllegalEncodings := by
  refine ⟨illegalWord_iff, illegalWord_iff_decode_error, fun w s illegal => ?_⟩
  obtain ⟨e, refused⟩ := (illegalWord_iff_decode_error w).mp illegal
  simp only [runCommand, refused, commandError]

/-! ## The poll of WAIT -/

/-- Settles O9: the bit the host polls is DONE. -/
theorem waitPollsDone : Obligations.WaitPollsDone := by
  have polled (s : State) : (readReg .status s).getLsbD 4 = s.done := by
    obtain ⟨_, done, _⟩ := statusWord_flags s
    exact done
  constructor <;> intro name s done <;> rw [hostAccess, hostPoll]
  · exact if_pos ((polled s).trans done)
  · exact if_neg (by rw [polled, done]; decide)

/-! ## SEAL over a frame -/

/-- The buffer with the trailer appended holds the sealed bytes (R70, R95). -/
theorem bytesAt_appendTrailer (m : Memory) (n : Nat) :
    bytesAt (appendTrailer m n (sum16 m 2 n)) 0 (n + 2) = sealFrame (bytesAt m 0 n) := by
  have body : bytesAt (appendTrailer m n (sum16 m 2 n)) 0 n = bytesAt m 0 n :=
    bytesAt_congr fun i _ lt => appendTrailer_read_other _ _ _ (by omega) (by omega)
  rw [bytesAt_append, body, sealFrame, checksumOf_bytesAt, Nat.zero_add]
  simp [bytesAt]

theorem exec_seal_fits {s : State} (idle : s.busy = false) (fits : s.len.toNat ≤ 198) :
    exec .sealOp s = .next { s with
      fbuf := appendTrailer s.fbuf s.len.toNat (sum16 s.fbuf 2 s.len.toNat)
      acc := sum16 s.fbuf 2 s.len.toNat
      len := s.len + 2 } := by
  rw [exec, execSeal, whenIdle_idle _ idle, if_neg (by simp [Config.capacity]; omega)]

/-- Settles O54: the trailer SEAL appends is the checksum of the body's bytes. -/
theorem sealCompletesTheFrame : Obligations.SealCompletesTheFrame := by
  intro s id pw params f idle bytes fits
  refine ⟨_, exec_seal_fits idle fits, ?_⟩
  have len : (s.len + 2).toNat = s.len.toNat + 2 := by bv_omega
  dsimp only
  rw [len, bytesAt_appendTrailer, bytes, frame]

end Sys2Proof.Proofs
end

section
/-! PROOFS. The catalog ROM and LOOKUP (40_catalog_rom.md R81, R86), with the two clauses every
command's rule has: its illegal encodings and its busy refusal. -/

namespace Sys2Proof.Proofs

open Sys2Proof Sys2Proof.Machine

/-! ## The clauses of every command's rule -/

/-- An opcode of the map takes no word with RSV or an operand field it does not use nonzero
(R61). -/
theorem illegalOtherwise_of_opcodeUse {op : Byte} {u : OpcodeUse}
    (use : opcodeUse op.toNat = some u) : IllegalOtherwise op u.usesA u.usesB := by
  intro w s isOp nonzero
  obtain ⟨_, _, refused⟩ := illegalEncodings
  refine refused w s ?_
  rw [← Bool.not_eq_true, legalWord_iff, isOp, use]
  rintro ⟨_, ⟨rfl⟩, rsv, a0, b0⟩
  obtain rsv' | ⟨unused, a'⟩ | ⟨unused, b'⟩ := nonzero
  · exact rsv' rsv
  · exact a' (a0 unused)
  · exact b' (b0 unused)

/-- Every command but NOP and CLR makes the busy check first (R124, R126). -/
theorem refusedWhileBusy {i : Instr} (notNop : i ≠ .nop) (notClr : i ≠ .clr) :
    RefusedWhileBusy i := by
  intro s busy
  cases i with
  | nop => exact absurd rfl notNop
  | clr => exact absurd rfl notClr
  | _ => exact if_pos busy

/-! ## The catalog -/

/-- Settles O36: each entry is a row of the table R81 fixes, which CATALOG keeps. -/
theorem catalogFixedEntries : Obligations.CatalogFixedEntries :=
  ⟨catalog_fixed rfl, catalog_fixed rfl, catalog_fixed rfl, catalog_fixed rfl, catalog_fixed rfl,
   catalog_fixed rfl, catalog_fixed rfl, catalog_fixed rfl, unitTypeWidth_cases⟩

/-! ## LOOKUP -/

theorem lookupResult_escape : lookupResult 0xFE = ⟨.escape, 0⟩ := if_pos rfl

theorem lookupResult_notFound {c : Byte} (plain : c ≠ escapeCode) (unknown : catalog c = none) :
    lookupResult c = ⟨.notFound, 0⟩ := by
  rw [lookupResult, if_neg plain, unknown]

theorem lookupResult_fixed {c w : Byte} (plain : c ≠ escapeCode) (found : catalog c = some w) :
    lookupResult c = ⟨.fixed, w⟩ := by
  rw [lookupResult, if_neg plain, found]

theorem exec_lookup_idle {s : State} (a : Byte) (idle : s.busy = false) :
    exec (.lookup a) s = .next { s with lkup := lookupResult a } :=
  whenIdle_idle (fun s => .next { s with lkup := lookupResult a }) idle

/-- What a host reads in LKUP after LOOKUP is the result's word (R30, R86). -/
theorem exec_lookup_readReg {s : State} (a : Byte) (idle : s.busy = false) :
    ∃ t, exec (.lookup a) s = .next t ∧ readReg .lkup t = (lookupResult a).word :=
  ⟨_, exec_lookup_idle a idle, rfl⟩

/-- Settles O27: LOOKUP puts `lookupResult` in LKUP, which tells the escape code, a code not in the
ROM and a code in it apart. -/
theorem lookupRule : Obligations.LookupRule := by
  refine ⟨fun _ => rfl, illegalOtherwise_of_opcodeUse (op := 0x0B) rfl,
    fun _ => refusedWhileBusy nofun nofun, ?escape, ?notFound, ?fixed, ?read04, ?readFE⟩
  case escape =>
    intro s idle
    rw [exec_lookup_idle _ idle, lookupResult_escape]
  case notFound =>
    intro a s idle plain unknown
    rw [exec_lookup_idle a idle, lookupResult_notFound plain unknown]
  case fixed =>
    intro a w s idle plain found
    rw [exec_lookup_idle a idle, lookupResult_fixed plain found]
  case read04 =>
    intro s idle
    obtain ⟨_, _, width, _⟩ := catalogFixedEntries
    have word : (lookupResult 0x04).word = 0x00000102#32 := by
      rw [lookupResult_fixed (by decide) width]
      rfl
    exact word ▸ exec_lookup_readReg 0x04 idle
  case readFE =>
    intro s idle
    have word : (lookupResult 0xFE).word = 0x00000200#32 := by
      rw [lookupResult_escape]
      rfl
    exact word ▸ exec_lookup_readReg 0xFE idle

end Sys2Proof.Proofs
end

section
/-! PROOFS. The checksum engine (41_checksum_engine.md R87 to R95): the sum of a frame, what each of
its commands does while BUSY = 0, and that VERIFY detects a change of one byte. -/

namespace Sys2Proof.Proofs

open Sys2Proof Sys2Proof.Machine

/-! ## The sum of a frame -/

/-- Settles O34: 198 bytes of at most 255 stay below 65536. -/
theorem frameSumNeverWraps : Obligations.FrameSumNeverWraps := by
  intro m b le
  have bound := byteSum_le m 2 (b - 2)
  rw [sum16_toNat m b le]
  exact ⟨byteSum_eq m 2 (b - 2), by omega⟩

theorem sum16_write_outside (m : Memory) {a b c : Nat} (v : Byte) (start : a ≤ c) (past : b ≤ c) :
    sum16 (m.write c v) a b = sum16 m a b := by
  rw [sum16, sum16, byteSum_write_outside m a (b - a) c v (by omega)]

/-- Within a frame the sum does not wrap, so it tells two values of one byte apart (R90). -/
theorem sum16_write_ne {m : Memory} {b c : Nat} {v : Byte} (le : b ≤ 200) (from2 : 2 ≤ c)
    (below : c < b) (ne : v ≠ m.read c) : sum16 (m.write c v) 2 b ≠ sum16 m 2 b := by
  intro same
  have change := byteSum_write_inside m 2 (b - 2) c v from2 (by omega)
  rw [← sum16_toNat _ b le, ← sum16_toNat _ b le, same] at change
  exact ne (BitVec.eq_of_toNat_eq (by omega))

/-! ## The trailer -/

theorem le16_inj {a b c d : Byte} : le16 a b = le16 c d ↔ a = c ∧ b = d := by
  constructor
  · intro same
    exact ⟨by simpa using congrArg lowByte same, by simpa using congrArg highByte same⟩
  · rintro ⟨rfl, rfl⟩
    rfl

theorem trailer_write_outside (m : Memory) {n c : Nat} (v : Byte) (before : c < n - 2) :
    trailer (m.write c v) n = trailer m n := by
  rw [trailer, trailer, Memory.read_write_other m v (by omega),
    Memory.read_write_other m v (by omega)]

theorem trailer_write_ne {m : Memory} {n c : Nat} {v : Byte} (inTrailer : c = n - 2 ∨ c = n - 1)
    (ne : v ≠ m.read c) : trailer (m.write c v) n ≠ trailer m n := by
  rw [trailer, trailer, Ne, le16_inj]
  rintro ⟨low, high⟩
  obtain rfl | rfl := inTrailer
  · exact ne (by simpa using low)
  · exact ne (by simpa using high)

/-- The bytes SEAL appends lie past the range it has summed. -/
theorem sum16_appendTrailer (m : Memory) {a n : Nat} (h : Half) (le : a ≤ n) :
    sum16 (appendTrailer m n h) a n = sum16 m a n := by
  rw [appendTrailer, sum16_write_outside _ _ (by omega) (by omega),
    sum16_write_outside _ _ le le_rfl]

/-- The bytes SEAL appends are the trailer of the longer frame (R70, R95). -/
theorem trailer_appendTrailer (m : Memory) (n : Nat) (h : Half) :
    trailer (appendTrailer m n h) (n + 2) = h := by
  simp [trailer]

/-! ## CKCLR, CKADD and CKSUM -/

theorem exec_ckclr_idle {s : State} (idle : s.busy = false) :
    exec .ckclr s = .next { s with acc := 0 } := by
  rw [exec, execCkclr, whenIdle_idle _ idle]

theorem exec_ckadd_idle {s : State} (b : Byte) (idle : s.busy = false) :
    exec (.ckadd b) s = .next { s with acc := s.acc + b.setWidth 16 } := by
  rw [exec, execCkadd, whenIdle_idle _ idle]

theorem exec_cksum_idle {s : State} (idle : s.busy = false) :
    exec .cksum s = .next { s with acc := sum16 s.fbuf 2 s.len.toNat } := by
  rw [exec, execCksum, whenIdle_idle _ idle]

/-- Settles O22: with BUSY = 0 the reset of ACC is CKCLR's whole effect. -/
theorem ckclrRule : Obligations.CkclrRule :=
  ⟨rfl, illegalOtherwise_of_opcodeUse (op := 0x06) rfl, refusedWhileBusy nofun nofun,
   fun _ => exec_ckclr_idle⟩

/-- Settles O23: the addition of 16-bit words wraps at 65536. -/
theorem ckaddRule : Obligations.CkaddRule := by
  refine ⟨fun _ => rfl, illegalOtherwise_of_opcodeUse (op := 0x07) rfl,
    fun _ => refusedWhileBusy nofun nofun, fun b s idle => ⟨_, exec_ckadd_idle b idle, ?_⟩⟩
  rw [BitVec.toNat_add, BitVec.toNat_setWidth_of_le (by decide)]

/-- Settles O24: a frame of at most 2 bytes sums an empty range. -/
theorem cksumRule : Obligations.CksumRule := by
  refine ⟨rfl, illegalOtherwise_of_opcodeUse (op := 0x08) rfl, refusedWhileBusy nofun nofun,
    fun _ => exec_cksum_idle, fun s idle le => ?_⟩
  rw [exec_cksum_idle idle, sum16_empty _ _ _ le]

/-! ## VERIFY -/

theorem exec_verify_short {s : State} (idle : s.busy = false) (short : s.len.toNat < 4) :
    FailsWith .verify s .truncatedBuffer := by
  rw [FailsWith, exec, execVerify, whenIdle_idle _ idle, if_pos short, commandError]

theorem exec_verify_long {s : State} (idle : s.busy = false) (long : 4 ≤ s.len.toNat) :
    exec .verify s = .next { s with
      acc := sum16 s.fbuf 2 (s.len.toNat - 2)
      ckok := decide (sum16 s.fbuf 2 (s.len.toNat - 2) = trailer s.fbuf s.len.toNat) } := by
  rw [exec, execVerify, whenIdle_idle _ idle, if_neg (not_lt.mpr long)]

/-- A half word is the trailer when it is the number of its two bytes, low byte first (R70). -/
theorem eq_trailer_iff (h : Half) (m : Memory) (n : Nat) :
    h = trailer m n ↔ h.toNat = (m.read (n - 2)).toNat + 256 * (m.read (n - 1)).toNat := by
  rw [trailer, ← BitVec.toNat_inj, le16_toNat]

theorem zero_eq_trailer_iff (m : Memory) (n : Nat) :
    0 = trailer m n ↔ m.read (n - 2) = 0 ∧ m.read (n - 1) = 0 := by
  rw [trailer, eq_comm, show (0 : Half) = le16 0 0 from rfl, le16_inj]

/-- Settles O25: CKOK is the comparison of the sum with the trailer, and a frame of 4 bytes sums an
empty range. -/
theorem verifyRule : Obligations.VerifyRule := by
  refine ⟨rfl, illegalOtherwise_of_opcodeUse (op := 0x09) rfl, refusedWhileBusy nofun nofun,
    fun _ => exec_verify_short, ?long, ?four⟩
  case long =>
    intro s idle long
    exact ⟨_, _, exec_verify_long idle long, rfl, by rw [decide_eq_true_iff, eq_trailer_iff]⟩
  case four =>
    intro s idle four
    have len : s.len.toNat = 4 := by rw [four]; rfl
    have verify := exec_verify_long idle len.ge
    rw [len, sum16_empty _ _ _ le_rfl] at verify
    exact ⟨_, verify, by rw [decide_eq_true_iff, zero_eq_trailer_iff]⟩

/-! ## SEAL -/

theorem exec_seal_overflow {s : State} (idle : s.busy = false) (long : 198 < s.len.toNat) :
    FailsWith .sealOp s .encodingOverflow := by
  rw [FailsWith, exec, execSeal, whenIdle_idle _ idle, if_pos (by simp [Config.capacity]; omega),
    commandError]

/-- LEN does not wrap where SEAL and its trailer fit (R26). -/
theorem toNat_add_two {n : Byte} (fits : n.toNat ≤ 198) : (n + 2).toNat = n.toNat + 2 := by
  bv_omega

/-- Settles O26: the appended bytes are the sum's, they lie past the summed range, and they are the
trailer a VERIFY compares that sum with. -/
theorem sealRule : Obligations.SealRule := by
  refine ⟨rfl, illegalOtherwise_of_opcodeUse (op := 0x0A) rfl, refusedWhileBusy nofun nofun,
    fun _ => exec_seal_overflow, ?fits, ?short, ?verified⟩
  case fits =>
    intro s idle fits
    refine ⟨_, _, _, exec_seal_fits idle fits, rfl, toNat_add_two fits, ?_, ?_,
      fun c => appendTrailer_read_other _ _ _⟩
    · rw [appendTrailer_read_low, lowByte_toNat]
    · rw [appendTrailer_read_high, highByte_toNat]
  case short =>
    intro s idle short
    refine ⟨_, exec_seal_fits idle (by omega), ?_⟩
    rw [appendTrailer_read_low, appendTrailer_read_high, sum16_empty _ _ _ short.le]
    exact ⟨rfl, rfl⟩
  case verified =>
    intro s idle atLeast2 fits
    refine ⟨_, _, exec_seal_fits idle fits, exec_verify_long idle ?long, decide_eq_true ?same⟩
    case long =>
      dsimp only
      rw [toNat_add_two fits]
      omega
    case same =>
      dsimp only
      rw [toNat_add_two fits, trailer_appendTrailer, Nat.add_sub_cancel,
        sum16_appendTrailer _ _ atLeast2]

/-! ## Detection -/

theorem exec_wrb_fits {s : State} {a : Byte} (b : Byte) (idle : s.busy = false)
    (bound : a.toNat < 200) :
    exec (.wrb a b) s = .next { s with fbuf := s.fbuf.write a.toNat b } := by
  rw [exec, execWrb, whenIdle_idle _ idle, if_pos ((addressExists_iff a).mpr bound)]

/-- A change of one byte of a sealed frame from offset 2 on changes the sum or the trailer, never
both (R90). -/
theorem sum16_write_ne_trailer {m : Memory} {n c : Nat} {v : Byte} (le : n ≤ 200)
    (isSealed : sum16 m 2 (n - 2) = trailer m n) (from2 : 2 ≤ c) (below : c < n)
    (ne : v ≠ m.read c) : sum16 (m.write c v) 2 (n - 2) ≠ trailer (m.write c v) n := by
  by_cases inBody : c < n - 2
  · rw [trailer_write_outside m v inBody, ← isSealed]
    exact sum16_write_ne (by omega) from2 inBody ne
  · rw [sum16_write_outside m v from2 (by omega), isSealed]
    exact (trailer_write_ne (by omega) ne).symm

/-- Settles O35: VERIFY compares two values of which the store has changed exactly one. -/
theorem oneByteChangeDetected : Obligations.OneByteChangeDetected := by
  intro s a b idle long le isSealed from2 below ne
  exact ⟨_, _, exec_wrb_fits b idle (by omega), exec_verify_long idle long,
    decide_eq_false (sum16_write_ne_trailer le isSealed from2 below ne)⟩

end Sys2Proof.Proofs
end

section
/-! PROOFS. The frame-buffer and control commands (42_frame_buffer.md R96 to R101), and that CMDERR
is sticky but for CLR (60_exceptions.md R128). -/

namespace Sys2Proof.Proofs

open Sys2Proof Sys2Proof.Machine

/-! ## CMDERR is sticky -/

/-- Of the commands only CLR takes CMDERR from 1 to 0 (R97). -/
theorem clr_of_cmderr_cleared {i : Instr} {s t : State} (e : CommandEffect i s t)
    (before : s.cmderr = true) (after : t.cmderr = false) : i = .clr ∧ t = softReset s := by
  cases e with
  | reset is => exact ⟨is, rfl⟩
  | error c => exact Bool.noConfusion after
  | _ => exact absurd (before.symm.trans after) (by decide)

/-- Of the host's accesses only the write of CLR's word to CMD takes CMDERR from 1 to 0. -/
theorem commandOp_clr_of_cmderr_cleared {op : HostOp} {s t : State} (e : HostEffect op s t)
    (before : s.cmderr = true) (after : t.cmderr = false) : op = commandOp (encode .clr) := by
  cases e with
  | command w is effect =>
    cases effect with
    | command i decodes effect =>
      obtain ⟨rfl, _⟩ := clr_of_cmderr_cleared effect before after
      rw [is, encode_of_decode decodes]
    | illegal => exact Bool.noConfusion after
  | ignored | noted | polling => exact absurd (before.symm.trans after) (by decide)

/-- Settles O30: no Framer step writes CMDERR, and of the host's accesses only CLR's clears it. -/
theorem onlyClrClearsCmderr : Obligations.OnlyClrClearsCmderr := by
  intro s t h before after
  cases step_inv h with
  | framer =>
    have kept : (framerTurn s).cmderr = s.cmderr := (framerStep_keeps s).cmderr
    exact absurd (before.symm.trans (kept.symm.trans after)) (by decide)
  | host op ops k taken _ effect =>
    have isClr := commandOp_clr_of_cmderr_cleared effect before after
    exact ⟨ops, by rw [taken, isClr]; rfl⟩

/-! ## NOP and CLR -/

/-- Settles O16: NOP makes no busy check, and its opcode uses no operand. -/
theorem nopRule : Obligations.NopRule :=
  ⟨rfl, illegalOtherwise_of_opcodeUse (op := 0x00) rfl, fun _ => rfl⟩

theorem exec_clr (s : State) : exec .clr s = .next (softReset s) := rfl

/-- Every field of STATUS is 0 after CLR, STATE and the error codes included (R97). -/
theorem readReg_status_softReset (s : State) : readReg .status (softReset s) = 0 := by
  rw [readReg, statusWord, softReset_busy, softReset_fsm, softReset_done, softReset_accepted,
    softReset_ckok, softReset_cmderr, softReset_derr, softReset_cerr]
  rfl

/-- Settles O17: CLR is the soft reset, whether BUSY or not, and the only command that lowers
CMDERR. -/
theorem clrRule : Obligations.ClrRule := by
  refine ⟨rfl, illegalOtherwise_of_opcodeUse (op := 0x01) rfl, exec_clr, ?status, ?sticky⟩
  case status =>
    rintro s _ ⟨⟩
    exact readReg_status_softReset s
  case sticky =>
    intro i s t h before after
    obtain ⟨isClr, _⟩ := clr_of_cmderr_cleared (exec_inv h) before after
    exact isClr

/-! ## WRB -/

theorem not_addressExists {a : Byte} (past : 200 ≤ a.toNat) : ¬ addressExists a = true := by
  rw [addressExists_iff]
  exact not_lt.mpr past

theorem exec_wrb_overflow {s : State} {a : Byte} (b : Byte) (idle : s.busy = false)
    (past : 200 ≤ a.toNat) : FailsWith (.wrb a b) s .encodingOverflow := by
  rw [FailsWith, exec, execWrb, whenIdle_idle _ idle, if_neg (not_addressExists past), commandError]

/-- Settles O18: the buffer WRB leaves is the one written at A. -/
theorem wrbRule : Obligations.WrbRule :=
  ⟨fun _ _ => rfl, illegalOtherwise_of_opcodeUse (op := 0x02) rfl,
   fun _ _ => refusedWhileBusy nofun nofun, fun _ b _ => exec_wrb_overflow b,
   fun _ b _ idle bound => ⟨_, exec_wrb_fits b idle bound, Memory.read_write_same _ _ _,
     fun _ => Memory.read_write_other _ b⟩⟩

/-! ## RDB -/

theorem exec_rdb_fits {s : State} {a : Byte} (idle : s.busy = false) (bound : a.toNat < 200) :
    exec (.rdb a) s = .next { s with rdata := s.fbuf.read a.toNat } := by
  rw [exec, execRdb, whenIdle_idle _ idle, if_pos ((addressExists_iff a).mpr bound)]

theorem exec_rdb_truncated {s : State} {a : Byte} (idle : s.busy = false) (past : 200 ≤ a.toNat) :
    FailsWith (.rdb a) s .truncatedBuffer := by
  rw [FailsWith, exec, execRdb, whenIdle_idle _ idle, if_neg (not_addressExists past), commandError]

/-- Settles O19: RDB compares A with the capacity, never with LEN. -/
theorem rdbRule : Obligations.RdbRule :=
  ⟨fun _ => rfl, illegalOtherwise_of_opcodeUse (op := 0x03) rfl,
   fun _ => refusedWhileBusy nofun nofun, fun _ _ => exec_rdb_truncated, fun _ _ => exec_rdb_fits⟩

/-! ## SETLEN -/

theorem exec_setlen_fits {s : State} {a : Byte} (idle : s.busy = false) (fits : a.toNat ≤ 200) :
    exec (.setlen a) s = .next { s with len := a } := by
  rw [exec, execSetlen, whenIdle_idle _ idle, if_pos ((lengthFits_iff a).mpr fits)]

theorem exec_setlen_overflow {s : State} {a : Byte} (idle : s.busy = false)
    (past : 200 < a.toNat) : FailsWith (.setlen a) s .encodingOverflow := by
  rw [FailsWith, exec, execSetlen, whenIdle_idle _ idle,
    if_neg ((lengthFits_iff a).not.mpr (not_le.mpr past)), commandError]

/-- Settles O20: A is LEN itself, and a full buffer of 200 bytes is a length that fits. -/
theorem setlenRule : Obligations.SetlenRule :=
  ⟨fun _ => rfl, illegalOtherwise_of_opcodeUse (op := 0x04) rfl,
   fun _ => refusedWhileBusy nofun nofun, fun _ _ => exec_setlen_overflow,
   fun _ _ => exec_setlen_fits⟩

/-! ## PUSH -/

theorem exec_push_fits {s : State} (b : Byte) (idle : s.busy = false) (bound : s.len.toNat < 200) :
    exec (.push b) s =
      .next { s with fbuf := s.fbuf.write s.len.toNat b, len := s.len + 1 } := by
  rw [exec, execPush, whenIdle_idle _ idle, if_pos ((addressExists_iff s.len).mpr bound)]

theorem exec_push_overflow {s : State} (b : Byte) (idle : s.busy = false)
    (past : 200 ≤ s.len.toNat) : FailsWith (.push b) s .encodingOverflow := by
  rw [FailsWith, exec, execPush, whenIdle_idle _ idle, if_neg (not_addressExists past),
    commandError]

/-- LEN does not wrap where a byte more fits (R26). -/
theorem toNat_add_one {n : Byte} (bound : n.toNat < 200) : (n + 1).toNat = n.toNat + 1 := by
  bv_omega

/-- Settles O21: PUSH writes at LEN, which exists below 200, and LEN + 1 does not wrap there. -/
theorem pushRule : Obligations.PushRule := by
  refine ⟨fun _ => rfl, illegalOtherwise_of_opcodeUse (op := 0x05) rfl,
    fun _ => refusedWhileBusy nofun nofun, ?full, ?fits⟩
  case full =>
    intro b s idle full
    have len : s.len.toNat = 200 := by rw [full]; rfl
    exact exec_push_overflow b idle len.ge
  case fits =>
    intro b s idle bound
    exact ⟨_, _, exec_push_fits b idle bound, toNat_add_one bound, Memory.read_write_same _ _ _,
      fun _ => Memory.read_write_other _ b⟩

end Sys2Proof.Proofs
end

section
/-! PROOFS. Every decode ends, in ACCEPT or REJECT, with the result of parsing the frame's bytes
(43_response_framer.md R118, R120). -/

namespace Sys2Proof.Proofs

open Sys2Proof Sys2Proof.Machine

/-- Settles O50: the simulation `decodeResult_run_startDecode`, from the state DECODE answers. -/
theorem decodeIsAFunctionOfTheFrame : Obligations.DecodeIsAFunctionOfTheFrame :=
  fun s idle len => ⟨startDecode s, exec_decode_idle idle, decodeResult_run_startDecode s len⟩

/-- Only a decode that has ended has a result. -/
theorem ended_of_decodeResult {s : State} {r : DecodeResult} (h : decodeResult s = some r) :
    s.fsm = .accept ∨ s.fsm = .reject := by
  unfold decodeResult at h
  split at h
  · exact .inl ‹_›
  · exact .inr ‹_›
  all_goals cases h

/-! ## Where a step of each state goes -/

theorem framerStep_fsm_of_hdr {s : State} (hdr : s.fsm = .hdr) :
    (framerStep s).fsm = .cks ∨ (framerStep s).fsm = .reject := by
  rw [framerStep_hdr hdr]
  obtain ⟨_, e⟩ | ⟨_, _, e⟩ | ⟨_, _, e⟩ := framerHdr_cases s <;> simp [e]

theorem framerStep_fsm_of_cks {s : State} (cks : s.fsm = .cks) :
    (framerStep s).fsm = .idn ∨ (framerStep s).fsm = .reject := by
  rw [framerStep_cks cks]
  obtain ⟨_, e⟩ | ⟨_, _, e⟩ | ⟨_, _, e⟩ := framerCks_cases s <;> simp [e]

theorem framerStep_fsm_of_idn {s : State} (idn : s.fsm = .idn) :
    (framerStep s).fsm = .fn ∨ (framerStep s).fsm = .reject := by
  rw [framerStep_idn idn]
  obtain ⟨_, _, _, e⟩ | ⟨_, _, _, _, _, e⟩ := framerIdn_cases s <;> simp [e]

theorem framerStep_fsm_of_fun {s : State} (fn : s.fsm = .fn) :
    (framerStep s).fsm = .par ∨ (framerStep s).fsm = .reject := by
  rw [framerStep_fun fn]
  obtain ⟨_, e⟩ | ⟨_, _, e⟩ | ⟨_, _, e⟩ := framerFun_cases s <;> simp [e]

/-- An offset up to PEND is not changed by the width of CURSOR. -/
theorem cursor_toNat_of_le {pos : Nat} {p : Byte} (h : pos ≤ p.toNat) :
    (BitVec.ofNat 8 pos).toNat = pos := by
  rw [BitVec.toNat_ofNat, Nat.mod_eq_of_lt (h.trans_lt p.isLt)]

/-- A PAR step that goes on takes at least the code, and ends up to PEND (R108). -/
theorem framerStep_advances_of_par {s : State} (par : s.fsm = .par)
    (bound : s.cursor.toNat ≤ s.pend.toNat) :
    (framerStep s).fsm = .accept ∨ (framerStep s).fsm = .reject ∨
    ((framerStep s).fsm = .par ∧ s.cursor.toNat < (framerStep s).cursor.toNat ∧
      (framerStep s).cursor.toNat ≤ (framerStep s).pend.toNat ∧
      (framerStep s).pend = s.pend) := by
  rw [framerStep_par par]
  obtain ⟨_, e⟩ | ⟨_, code, pos, _, _, e⟩ | ⟨real, w, q, after, fits, e⟩ :=
    framerPar_cases s bound <;> rw [e]
  · exact .inl rfl
  · exact .inr (.inl rfl)
  · refine .inr (.inr ⟨par, ?_, ?_, rfl⟩)
    · rw [cursor_toNat_of_le fits]
      omega
    · rw [cursor_toNat_of_le fits]
      exact fits

/-- Settles O49: the steps of each state, and the run of LEN + 5 steps, which has a result
(`decodeResult_run_startDecode`) and so has ended. -/
theorem everyDecodeEnds : Obligations.EveryDecodeEnds :=
  ⟨fun _ => framerStep_fsm_of_hdr, fun _ => framerStep_fsm_of_cks, fun _ => framerStep_fsm_of_idn,
   fun _ => framerStep_fsm_of_fun, fun _ => framerStep_advances_of_par,
   fun s idle len => ⟨startDecode s, exec_decode_idle idle,
     ended_of_decodeResult (decodeResult_run_startDecode s len)⟩⟩

end Sys2Proof.Proofs
end

section
/-! PROOFS. DECODE, accept() and reject(), and what the Framer's step does in each state of the
decode (43_response_framer.md R102, R104 to R110). -/

namespace Sys2Proof.Proofs

open Sys2Proof Sys2Proof.Machine

/-! ## DECODE, accept() and reject() -/

/-- Settles O28: while BUSY = 0 DECODE answers `startDecode`, whose STATE is HDR. -/
theorem decodeRule : Obligations.DecodeRule := by
  refine ⟨rfl, illegalOtherwise_of_opcodeUse (op := 0x0C) rfl, refusedWhileBusy nofun nofun,
    fun _ => exec_decode_idle, ?busy⟩
  intro s t idle started
  rw [exec_decode_idle idle] at started
  cases started
  exact startDecode_busy s

/-- Settles O43: the writes are the definitions', an offset up to 200 fits CURSOR, and BUSY is 0 in
ACCEPT and REJECT. -/
theorem acceptAndRejectWrites : Obligations.AcceptAndRejectWrites := by
  refine ⟨fun _ => rfl, ?reject, accept_busy, reject_busy⟩
  intro code pos s bound
  exact ⟨BitVec.ofNat 8 pos, cursor_toNat_of_le (p := 200) bound, rfl⟩

/-! ## HDR -/

theorem framerHdr_short {s : State} (short : s.len.toNat < 3) :
    framerHdr s = reject .truncatedBuffer 0 s := if_pos short

theorem framerHdr_invalid {s : State} (three : 3 ≤ s.len.toNat) (magic : ¬ headerAt s.fbuf) :
    framerHdr s = reject .headerInvalid 0 s := by
  obtain ⟨short, _⟩ | ⟨_, _, e⟩ | ⟨_, isMagic, _⟩ := framerHdr_cases s
  · omega
  · exact e
  · exact absurd isMagic magic

theorem framerHdr_valid {s : State} (three : 3 ≤ s.len.toNat) (magic : headerAt s.fbuf) :
    framerHdr s = { s with cursor := 3, fsm := .cks } := by
  obtain ⟨short, _⟩ | ⟨_, notMagic, _⟩ | ⟨_, _, e⟩ := framerHdr_cases s
  · omega
  · exact absurd magic notMagic
  · exact e

/-- Settles O38: the length is checked before the magic. -/
theorem hdrRule : Obligations.HdrRule := by
  refine ⟨?short, ?invalid, ?valid⟩ <;> intro s hdr <;> rw [framerStep_hdr hdr]
  case short => exact framerHdr_short
  case invalid => exact framerHdr_invalid
  case valid => exact framerHdr_valid

/-! ## CKS -/

theorem framerCks_short {s : State} (short : s.len.toNat < 4) :
    framerCks s = reject .truncatedBuffer 0 s := if_pos short

theorem framerCks_mismatch {s : State} (four : 4 ≤ s.len.toNat)
    (sum : sum16 s.fbuf 2 (s.len.toNat - 2) ≠ trailer s.fbuf s.len.toNat) :
    framerCks s =
      reject .checksumMismatch 0 { s with acc := sum16 s.fbuf 2 (s.len.toNat - 2) } := by
  obtain ⟨short, _⟩ | ⟨_, _, e⟩ | ⟨_, same, _⟩ := framerCks_cases s
  · omega
  · exact e
  · exact absurd same sum

theorem framerCks_match {s : State} (four : 4 ≤ s.len.toNat)
    (sum : sum16 s.fbuf 2 (s.len.toNat - 2) = trailer s.fbuf s.len.toNat) :
    framerCks s = { s with
      acc := sum16 s.fbuf 2 (s.len.toNat - 2), pend := s.len - 2, fsm := .idn } := by
  obtain ⟨short, _⟩ | ⟨_, other, _⟩ | ⟨_, _, e⟩ := framerCks_cases s
  · omega
  · exact absurd sum other
  · exact e

/-- Settles O39: a frame of 4 bytes has an empty sum, which is not its trailer
(`sum16_ne_trailer_of_headerAt`). -/
theorem cksRule : Obligations.CksRule := by
  refine ⟨?short, ?mismatch, ?agrees, ?four⟩ <;> intro s cks <;> rw [framerStep_cks cks]
  case short => exact framerCks_short
  case mismatch => exact framerCks_mismatch
  case agrees => exact fun four sum => ⟨_, framerCks_match four sum, by bv_omega⟩
  case four =>
    intro len magic
    have four : s.len.toNat = 4 := by rw [len]; rfl
    have empty : sum16 s.fbuf 2 (4 - 2) = 0 := sum16_empty _ _ _ le_rfl
    have mismatch := framerCks_mismatch (s := s) four.ge
    rw [four, empty] at mismatch
    exact mismatch (empty ▸ sum16_ne_trailer_of_headerAt magic)

/-! ## IDN

`c` is CURSOR and `p` is PEND; `n` and `m` are the two length bytes. -/

section Idn

variable {s : State} {c p n m : Nat} (cursor : s.cursor.toNat = c) (pend : s.pend.toNat = p)

include cursor pend

theorem framerIdn_noIdLength (short : p ≤ c) : framerIdn s = reject .truncatedBuffer c s := by
  subst cursor pend
  exact if_pos short

variable (idLen : (s.fbuf.read c).toNat = n)

include idLen

theorem framerIdn_longId (first : c < p) (long : p < c + 1 + n) :
    framerIdn s = reject .truncatedBuffer (c + 1) s := by
  rw [framerIdn, cursor, pend, idLen, if_neg (by omega), if_pos long]

theorem framerIdn_noPwLength (last : p = c + 1 + n) :
    framerIdn s = reject .truncatedBuffer (c + 1 + n) s := by
  rw [framerIdn, cursor, pend, idLen, if_neg (by omega), if_neg (by omega), if_pos last.le]

variable (pwLen : (s.fbuf.read (c + 1 + n)).toNat = m)

include pwLen

theorem framerIdn_longPw (second : c + 1 + n < p) (long : p < c + 2 + n + m) :
    framerIdn s = reject .truncatedBuffer (c + 2 + n) s := by
  simp only [framerIdn, cursor, pend, idLen, pwLen]
  rw [if_neg (by omega), if_neg (by omega), if_neg (by omega), if_pos (by omega),
    show c + 1 + n + 1 = c + 2 + n by omega]

theorem framerIdn_fits (fits : c + 2 + n + m ≤ p) :
    framerIdn s = { s with
      shadow := storeIdent (c + 1) n (c + 2 + n) m s.shadow
      cursor := BitVec.ofNat 8 (c + 2 + n + m)
      fsm := .fn } := by
  simp only [framerIdn, cursor, pend, idLen, pwLen]
  rw [if_neg (by omega), if_neg (by omega), if_neg (by omega), if_neg (by omega),
    show c + 1 + n + 1 = c + 2 + n by omega]

end Idn

/-- Settles O40: each string either passes PEND at one of its two reads or fits; that the first
starts at 4 is the invariant's, which IDN keeps. -/
theorem idnRule : Obligations.IdnRule := by
  constructor
  · rintro s c p n m idn rfl rfl rfl rfl
    rw [framerStep_idn idn]
    refine ⟨framerIdn_noIdLength rfl rfl, framerIdn_longId rfl rfl rfl,
      fun _ => framerIdn_noPwLength rfl rfl rfl, framerIdn_longPw rfl rfl rfl rfl, ?fits⟩
    exact fun fits => ⟨_, _, framerIdn_fits rfl rfl rfl rfl fits, cursor_toNat_of_le fits, rfl⟩
  · intro s inv idn
    refine ⟨inv.cursorAfterHeader (.inr idn), fun fn => ?_⟩
    obtain ⟨_, idOff⟩ := (inv_framerStep inv).shadowIdent (by rw [fn]; rfl)
    exact idOff

/-! ## FUN -/

theorem framerFun_empty {s : State} (empty : s.pend.toNat ≤ s.cursor.toNat) :
    framerFun s = reject .truncatedBuffer s.cursor.toNat s := if_pos empty

theorem framerFun_other {s : State} (lt : s.cursor.toNat < s.pend.toNat)
    (other : s.fbuf.read s.cursor.toNat ≠ responseCode) :
    framerFun s = reject .unexpectedFunction s.cursor.toNat s := by
  simp only [framerFun, if_neg (not_le.mpr lt), if_pos other]

theorem framerFun_response {s : State} (lt : s.cursor.toNat < s.pend.toNat)
    (response : s.fbuf.read s.cursor.toNat = responseCode) :
    framerFun s = { s with cursor := BitVec.ofNat 8 (s.cursor.toNat + 1), fsm := .par } := by
  simp only [framerFun, if_neg (not_le.mpr lt), if_neg (not_not.mpr response)]

/-- Settles O41: RESPONSE is the one code FUN lets pass, and CURSOR + 1 up to PEND does not wrap. -/
theorem funRule : Obligations.FunRule := by
  rintro s c p fn rfl rfl
  rw [framerStep_fun fn]
  exact ⟨framerFun_empty, framerFun_other, fun lt response =>
    ⟨_, framerFun_response lt response, cursor_toNat_of_le (p := s.pend) lt⟩⟩

/-! ## PAR

`c` is CURSOR and `p` is PEND. -/

theorem takeParameter_truncated {real : Byte} {w q : Nat} {s : State}
    (long : s.pend.toNat < q + w) : takeParameter real w q s = reject .truncatedBuffer q s :=
  if_pos long

theorem takeParameter_fits {real : Byte} {w q : Nat} {s : State} (fits : q + w ≤ s.pend.toNat) :
    takeParameter real w q s = { s with
      shadow := semantic real w (payloadAt s.fbuf q) s.shadow
      cursor := BitVec.ofNat 8 (q + w) } := if_neg (by omega)

section Par

variable {s : State} {c p : Nat} (cursor : s.cursor.toNat = c) (pend : s.pend.toNat = p)

include cursor pend

theorem framerPar_atEnd (atEnd : c = p) : framerPar s = accept s := by
  rw [framerPar, cursor, pend, if_pos atEnd]

theorem framerPar_escape_alone (lt : c < p) (escape : s.fbuf.read c = escapeCode)
    (last : p ≤ c + 1) : framerPar s = reject .truncatedBuffer (c + 1) s := by
  rw [framerPar, cursor, pend, if_neg (by omega), if_pos escape, if_pos last]

theorem framerPar_escape_width (escape : s.fbuf.read c = escapeCode) (last : p = c + 2) :
    framerPar s = reject .truncatedBuffer (c + 2) s := by
  rw [framerPar, cursor, pend, if_neg (by omega), if_pos escape, if_neg (by omega),
    if_pos last.le]

theorem framerPar_escaped (escape : s.fbuf.read c = escapeCode) (inside : c + 2 < p) :
    framerPar s =
      takeParameter (s.fbuf.read (c + 2)) (s.fbuf.read (c + 1)).toNat (c + 3) s := by
  rw [framerPar, cursor, pend, if_neg (by omega), if_pos escape, if_neg (by omega),
    if_neg (by omega)]

theorem framerPar_unknown (lt : c < p) (plain : s.fbuf.read c ≠ escapeCode)
    (unknown : catalog (s.fbuf.read c) = none) :
    framerPar s = reject .unknownParameter c s := by
  simp only [framerPar, cursor, pend, if_neg lt.ne, if_neg plain, unknown]

theorem framerPar_plain {w : Byte} (lt : c < p) (plain : s.fbuf.read c ≠ escapeCode)
    (found : catalog (s.fbuf.read c) = some w) :
    framerPar s = takeParameter (s.fbuf.read c) w.toNat (c + 1) s := by
  simp only [framerPar, cursor, pend, if_neg lt.ne, if_neg plain, found]

end Par

/-- Settles O42: an escaped and a plain parameter both end in `takeParameter`, which compares the
payload's end with PEND. -/
theorem parRule : Obligations.ParRule := by
  rintro s c p par rfl rfl
  rw [framerStep_par par]
  refine ⟨framerPar_atEnd rfl rfl, framerPar_escape_alone rfl rfl,
    fun _ => framerPar_escape_width rfl rfl, ?longEscaped, ?escaped, framerPar_unknown rfl rfl,
    ?longPlain, ?plain⟩
  case longEscaped =>
    rintro w escape inside rfl long
    rw [framerPar_escaped rfl rfl escape inside, takeParameter_truncated long]
  case escaped =>
    rintro w escape inside rfl fits
    rw [framerPar_escaped rfl rfl escape inside, takeParameter_fits fits]
    exact ⟨_, rfl, cursor_toNat_of_le fits⟩
  case longPlain =>
    intro w lt plain found long
    rw [framerPar_plain rfl rfl lt plain found, takeParameter_truncated long]
  case plain =>
    intro w lt plain found fits
    rw [framerPar_plain rfl rfl lt plain found, takeParameter_fits fits]
    exact ⟨_, rfl, cursor_toNat_of_le fits⟩

end Sys2Proof.Proofs
end

section
/-! PROOFS. How a decode ends, and what bounds it while it runs (43_response_framer.md R109, R110,
R119). -/

namespace Sys2Proof.Proofs

open Sys2Proof Sys2Proof.Machine

/-! ## The outcomes -/

/-- Only accept() enters ACCEPT, from PAR at CURSOR = PEND (R109). -/
theorem accepts_of_fsm {s : State} (busy : s.busy = true) (ended : (framerStep s).fsm = .accept) :
    s.fsm = .par ∧ s.cursor = s.pend ∧ framerStep s = accept s := by
  have outcome := framerStep_outcome busy
  generalize framerStep s = t at ended outcome ⊢
  cases outcome with
  | accepts par atEnd => exact ⟨par, BitVec.eq_of_toNat_eq atEnd, rfl⟩
  | rejects => simp at ended
  | goesOn running => exact absurd (.inl ended) (not_ended_of_busy running)

/-- Only reject() enters REJECT, with a code that is an error (R110). -/
theorem rejects_of_fsm {s : State} (busy : s.busy = true) (ended : (framerStep s).fsm = .reject) :
    ∃ code pos h, code ≠ .none ∧ framerStep s = reject code pos { s with acc := h } := by
  have outcome := framerStep_outcome busy
  generalize framerStep s = t at ended outcome ⊢
  cases outcome with
  | accepts => simp at ended
  | rejects code pos h legal => exact ⟨code, pos, h, legal, rfl⟩
  | goesOn running => exact absurd (.inr ended) (not_ended_of_busy running)

/-- A host reads the VALID bits at their own positions (R31). -/
theorem validWord_getLsbD (n : Snapshot) {k : Nat} (h : k < 9) :
    n.validWord.getLsbD k = n.has k := by
  rw [Snapshot.validWord, BitVec.getLsbD_append, if_pos h, Snapshot.has]

/-- Settles O44: the step is accept() itself, and VALID[8] is the invariant's. -/
theorem acceptOutcome : Obligations.AcceptOutcome := by
  intro s inv busy ended
  obtain ⟨par, atEnd, step⟩ := accepts_of_fsm busy ended
  have ident : (framerStep s).snap.has 8 = true := ((inv_framerStep inv).snapIdent ended).1
  refine ⟨par, atEnd, ?snap, ?done, ?accepted, ?derr, ?busy, ?valid⟩
  case valid => exact (validWord_getLsbD _ (by decide)).trans ident
  all_goals rw [step]; rfl

/-- The registers that show the committed snapshot (R21). -/
theorem readReg_of_snap_zero {s : State} (cleared : s.snap = Snapshot.zero) :
    ∀ r ∈ [Reg.valid, .tel0, .tel1, .fw0, .fw1, .sid0, .sid1, .sid2, .sid3, .ident],
      readReg r s = 0 := by
  simp only [List.forall_mem_cons, readReg, cleared]
  exact ⟨rfl, rfl, rfl, rfl, rfl, rfl, rfl, rfl, rfl, rfl, nofun⟩

/-- Settles O45: the step is reject() itself, and the committed snapshot is zero but in ACCEPT. -/
theorem rejectOutcome : Obligations.RejectOutcome := by
  intro s inv busy ended
  obtain ⟨code, pos, h, isError, step⟩ := rejects_of_fsm busy ended
  have cleared := (inv_framerStep inv).snapCleared (by simp [ended])
  refine ⟨?derr, ?done, ?accepted, ?busy, ?shadow, (framerStep_keeps s).fbuf,
    readReg_of_snap_zero cleared⟩
  case derr => rw [step]; exact isError
  all_goals rw [step]; rfl

/-! ## CURSOR and PEND -/

theorem readsFields_cases {f : FramerState} (h : f.readsFields = true) :
    f = .idn ∨ f = .fn ∨ f = .par := by
  cases f <;> simp_all [FramerState.readsFields]

/-- No step of IDN, FUN or PAR writes PEND, and none takes CURSOR past it, not even the one that
rejects (R106 to R108). -/
theorem framerStep_cursor_le_pend {s : State} (reads : s.fsm.readsFields = true)
    (bound : s.cursor.toNat ≤ s.pend.toNat) :
    (framerStep s).pend = s.pend ∧ (framerStep s).cursor.toNat ≤ s.pend.toNat := by
  have rejected (code : ErrorCode) {pos : Nat} (le : pos ≤ s.pend.toNat) :
      (reject code pos s).cursor.toNat ≤ s.pend.toNat := (cursor_toNat_of_le le).trans_le le
  obtain idn | fn | par := readsFields_cases reads
  · rw [framerStep_idn idn]
    obtain ⟨pos, _, le, e⟩ | ⟨n, m, _, _, fits, e⟩ := framerIdn_cases s <;> rw [e]
    · exact ⟨rfl, rejected _ (le bound)⟩
    · exact ⟨rfl, (cursor_toNat_of_le fits).trans_le fits⟩
  · rw [framerStep_fun fn]
    obtain ⟨_, e⟩ | ⟨_, _, e⟩ | ⟨lt, _, e⟩ := framerFun_cases s <;> rw [e]
    · exact ⟨rfl, rejected _ bound⟩
    · exact ⟨rfl, rejected _ bound⟩
    · exact ⟨rfl, (cursor_toNat_of_le (p := s.pend) lt).trans_le lt⟩
  · rw [framerStep_par par]
    obtain ⟨_, e⟩ | ⟨_, _, _, _, le, e⟩ | ⟨_, _, _, _, fits, e⟩ := framerPar_cases s bound <;> rw [e]
    · exact ⟨rfl, bound⟩
    · exact ⟨rfl, rejected _ le⟩
    · exact ⟨rfl, (cursor_toNat_of_le fits).trans_le fits⟩

/-- PEND = LEN - 2 bounds CURSOR after a step from IDN, FUN or PAR, and after one that leads there
(R119). -/
theorem framerStep_pend_fixed {s : State} (inv : Inv s)
    (reads : s.fsm.readsFields = true ∨ (framerStep s).fsm.readsFields = true) :
    (framerStep s).cursor.toNat ≤ (framerStep s).pend.toNat ∧
    (framerStep s).pend.toNat + 2 = (framerStep s).len.toNat := by
  obtain before | after := reads
  · obtain ⟨fixed, bound⟩ := inv.pendFixed before
    obtain ⟨pend, cursor⟩ := framerStep_cursor_le_pend before bound
    rw [pend, (framerStep_keeps s).len]
    exact ⟨cursor, fixed⟩
  · obtain ⟨fixed, bound⟩ := (inv_framerStep inv).pendFixed after
    exact ⟨bound, fixed⟩

/-! ## The bytes a step depends on

`m` is a buffer that agrees with FBUF below PEND. -/

section Agree

variable {s : State} {m : Memory} (agree : ∀ a, a < s.pend.toNat → m.read a = s.fbuf.read a)

include agree

theorem framerIdn_congr : framerIdn { s with fbuf := m } = { framerIdn s with fbuf := m } := by
  by_cases idByte : s.pend.toNat ≤ s.cursor.toNat
  · rw [framerIdn_noIdLength (s := s) rfl rfl idByte]
    exact framerIdn_noIdLength rfl rfl idByte
  have first := not_le.mp idByte
  have idLen := congrArg BitVec.toNat (agree _ first)
  obtain long | last | second :=
    lt_trichotomy s.pend.toNat (s.cursor.toNat + 1 + (s.fbuf.read s.cursor.toNat).toNat)
  · rw [framerIdn_longId (s := s) rfl rfl rfl first long]
    exact framerIdn_longId (s := { s with fbuf := m }) rfl rfl idLen first long
  · rw [framerIdn_noPwLength (s := s) rfl rfl rfl last]
    exact framerIdn_noPwLength (s := { s with fbuf := m }) rfl rfl idLen last
  have pwLen := congrArg BitVec.toNat (agree _ second)
  obtain fits | long := le_or_gt (s.cursor.toNat + 2 + (s.fbuf.read s.cursor.toNat).toNat +
    (s.fbuf.read (s.cursor.toNat + 1 + (s.fbuf.read s.cursor.toNat).toNat)).toNat) s.pend.toNat
  · rw [framerIdn_fits (s := s) rfl rfl rfl rfl fits]
    exact framerIdn_fits (s := { s with fbuf := m }) rfl rfl idLen pwLen fits
  · rw [framerIdn_longPw (s := s) rfl rfl rfl rfl second long]
    exact framerIdn_longPw (s := { s with fbuf := m }) rfl rfl idLen pwLen second long

theorem framerFun_congr : framerFun { s with fbuf := m } = { framerFun s with fbuf := m } := by
  obtain ⟨empty, e⟩ | ⟨lt, other, e⟩ | ⟨lt, response, e⟩ := framerFun_cases s <;> rw [e]
  · exact framerFun_empty (s := { s with fbuf := m }) empty
  · exact framerFun_other (s := { s with fbuf := m }) lt ((agree _ lt).trans_ne other)
  · exact framerFun_response (s := { s with fbuf := m }) lt ((agree _ lt).trans response)

theorem takeParameter_congr (real : Byte) (w q : Nat) :
    takeParameter real w q { s with fbuf := m } =
      { takeParameter real w q s with fbuf := m } := by
  obtain ⟨long, e⟩ | ⟨fits, e⟩ := takeParameter_cases real w q s <;> rw [e]
  · exact takeParameter_truncated (s := { s with fbuf := m }) long
  · have payload : semantic real w (payloadAt m q) s.shadow =
        semantic real w (payloadAt s.fbuf q) s.shadow :=
      semantic_congr _ _ _ fun i hi => agree (q + i) (by omega)
    rw [takeParameter_fits (s := { s with fbuf := m }) fits]
    dsimp only
    rw [payload]

theorem framerPar_congr (bound : s.cursor.toNat ≤ s.pend.toNat) :
    framerPar { s with fbuf := m } = { framerPar s with fbuf := m } := by
  obtain atEnd | lt := bound.eq_or_lt
  · rw [framerPar_atEnd (s := s) rfl rfl atEnd]
    exact framerPar_atEnd rfl rfl atEnd
  have code := agree _ lt
  by_cases escape : s.fbuf.read s.cursor.toNat = escapeCode
  · have escape' := code.trans escape
    obtain last | last | inside : s.pend.toNat ≤ s.cursor.toNat + 1 ∨
        s.pend.toNat = s.cursor.toNat + 2 ∨ s.cursor.toNat + 2 < s.pend.toNat := by omega
    · rw [framerPar_escape_alone (s := s) rfl rfl lt escape last]
      exact framerPar_escape_alone (s := { s with fbuf := m }) rfl rfl lt escape' last
    · rw [framerPar_escape_width (s := s) rfl rfl escape last]
      exact framerPar_escape_width (s := { s with fbuf := m }) rfl rfl escape' last
    · rw [framerPar_escaped (s := s) rfl rfl escape inside,
        framerPar_escaped (s := { s with fbuf := m }) rfl rfl escape' inside,
        takeParameter_congr agree, agree _ inside, agree (s.cursor.toNat + 1) (by omega)]
  · have plain := code.trans_ne escape
    cases entry : catalog (s.fbuf.read s.cursor.toNat) with
    | none =>
      rw [framerPar_unknown (s := s) rfl rfl lt escape entry]
      exact framerPar_unknown (s := { s with fbuf := m }) rfl rfl lt plain (code ▸ entry)
    | some w =>
      rw [framerPar_plain (s := s) rfl rfl lt escape entry,
        framerPar_plain (s := { s with fbuf := m }) rfl rfl lt plain (code ▸ entry),
        takeParameter_congr agree, code]

/-- A step of IDN, FUN or PAR reads no byte at or past PEND (R119). -/
theorem framerStep_congr (reads : s.fsm.readsFields = true)
    (bound : s.cursor.toNat ≤ s.pend.toNat) :
    framerStep { s with fbuf := m } = { framerStep s with fbuf := m } := by
  obtain idn | fn | par := readsFields_cases reads
  · rw [framerStep_idn idn, framerStep_idn (s := { s with fbuf := m }) idn, framerIdn_congr agree]
  · rw [framerStep_fun fn, framerStep_fun (s := { s with fbuf := m }) fn, framerFun_congr agree]
  · rw [framerStep_par par, framerStep_par (s := { s with fbuf := m }) par,
      framerPar_congr agree bound]

end Agree

/-- Settles O46: the bound is the invariant's and each step's, the step depends on the bytes below
PEND alone (`framerStep_congr`), and the committed snapshot is zero but in ACCEPT. -/
theorem framerBounds : Obligations.FramerBounds :=
  ⟨fun _ inv _ => framerStep_pend_fixed inv,
   fun _ _ reads bound agree => framerStep_congr agree reads bound,
   fun s => ⟨(framerStep_keeps s).fbuf, (framerStep_keeps s).len⟩,
   fun _ inv busy => ⟨inv.snapCleared fun ended => not_ended_of_busy busy (.inl ended),
     (inv_framerStep inv).snapCleared⟩⟩

end Sys2Proof.Proofs
end

section
/-! PROOFS. The semantic decode and what a stream of parameters leaves (43_response_framer.md R111,
R112, R114). -/

namespace Sys2Proof.Proofs

open Sys2Proof Sys2Proof.Machine

/-! ## The table of R111 -/

/-- A code of R111 at its semantic width is stored (R112). -/
theorem semantic_eq_storeAttr {real : Byte} {w : Nat} {a : Attr} (code : attrOfCode real = some a)
    (width : w = semanticWidth a) (b : Nat → Byte) (n : Snapshot) :
    semantic real w b n = storeAttr a b n := by
  simp only [semantic, code, if_pos width]

/-- A code of R111 with its semantic width is a row of the table. -/
theorem row_of_attrOfCode {real : Byte} {a : Attr} (h : attrOfCode real = some a) :
    (real.toNat, semanticWidth a) ∈ [(0x01, 1), (0x02, 1), (0x31, 1), (0x04, 2), (0x2E, 1),
      (0x86, 6), (0xB9, unitTypeWidth.toNat), (0x7C, 16)] := by
  unfold attrOfCode at h
  split at h
  on_goal 9 => cases h
  all_goals
    rename_i code
    cases h
    rw [code]
    simp [semanticWidth]

/-- R81 gives a code of R111 its semantic width. -/
theorem fixedWidth_of_attrOfCode {real : Byte} {a : Attr} (h : attrOfCode real = some a) :
    ∃ w, fixedWidth real = some w ∧ w.toNat = semanticWidth a := by
  unfold attrOfCode at h
  split at h
  on_goal 9 => cases h
  all_goals
    rename_i code
    cases h
    exact ⟨_, by rw [fixedWidth, code]; rfl, rfl⟩

/-- Settles O47: a code at its semantic width is stored, every other parameter is no row of the
table, and CATALOG keeps the widths of R81. -/
theorem semanticTable : Obligations.SemanticTable := by
  refine ⟨?rows, ?otherwise, ?widths⟩
  case rows =>
    intro b n
    have stored {real : Byte} {w : Nat} (a : Attr) (code : attrOfCode real = some a)
        (width : w = semanticWidth a) := semantic_eq_storeAttr code width b n
    refine ⟨?onOff, stored .battery rfl rfl, stored .temperature rfl rfl,
      stored .fanSpeed rfl rfl, stored .humidity rfl rfl, stored .firmware rfl rfl,
      stored .unitType rfl rfl, stored .searchId rfl rfl⟩
    have onOff : semantic 0x01 1 b n = storeAttr .onOff b n := stored .onOff rfl rfl
    rw [onOff, storeAttr, storeField, ite_not]
    rfl
  case otherwise =>
    intro real w b n noRow
    obtain skipped | ⟨a, code, rfl, _⟩ := semantic_cases real w b n
    · exact skipped
    · exact absurd (row_of_attrOfCode code) noRow
  case widths =>
    intro real w a code entry
    obtain ⟨v, fixed, width⟩ := fixedWidth_of_attrOfCode code
    obtain rfl := Option.some.inj (entry.symm.trans (catalog_fixed fixed))
    exact width

/-! ## The last occurrence -/

/-- A parameter decoded a second time overwrites the first (R114). -/
theorem semantic_semantic (real : Byte) (w : Nat) (b c : Nat → Byte) (n : Snapshot) :
    semantic real w c (semantic real w b n) = semantic real w c n := by
  obtain e | ⟨a, code, width, e⟩ := semantic_cases real w b n <;> rw [e]
  rw [semantic_eq_storeAttr code width, semantic_eq_storeAttr code width, storeAttr_same]

theorem foldStream_cons_of_decodes {i : StreamItem} {a : Attr} (h : i.decodes a)
    (is : List StreamItem) (n : Snapshot) :
    foldStream (i :: is) n = foldStream is (storeAttr a (fun k => i.payload.getD k 0) n) := by
  obtain ⟨code, width⟩ := h
  rw [foldStream_cons, semantic_eq_storeAttr code width]

/-- An item that is not decoded is skipped (R113). -/
theorem foldStream_cons_of_not_decodes {i : StreamItem} (h : ¬ ∃ a, i.decodes a)
    (is : List StreamItem) (n : Snapshot) : foldStream (i :: is) n = foldStream is n := by
  rw [foldStream_cons]
  obtain skipped | ⟨a, code, width, _⟩ :=
    semantic_cases i.code i.payload.length (fun k => i.payload.getD k 0) n
  · rw [skipped]
  · exact absurd ⟨a, code, width⟩ h

/-- Whatever the items between, a store of a parameter leaves no trace of an earlier one. -/
theorem storeAttr_foldStream_storeAttr (a : Attr) (b c : Nat → Byte) (items : List StreamItem)
    (n : Snapshot) :
    storeAttr a c (foldStream items (storeAttr a b n)) = storeAttr a c (foldStream items n) := by
  induction items generalizing n with
  | nil => exact storeAttr_same a b c n
  | cons i is ih =>
    by_cases decoded : ∃ d, i.decodes d
    · obtain ⟨d, decodes⟩ := decoded
      rw [foldStream_cons_of_decodes decodes, foldStream_cons_of_decodes decodes]
      by_cases same : d = a
      · rw [same, storeAttr_same]
      · rw [storeAttr_comm same, ih]
    · rw [foldStream_cons_of_not_decodes decoded, foldStream_cons_of_not_decodes decoded, ih]

/-- A store of a parameter no item decodes may come before the items or after them. -/
theorem storeAttr_foldStream {a : Attr} {items : List StreamItem}
    (others : ∀ z ∈ items, ¬ z.decodes a) (b : Nat → Byte) (n : Snapshot) :
    storeAttr a b (foldStream items n) = foldStream items (storeAttr a b n) := by
  induction items generalizing n with
  | nil => rfl
  | cons i is ih =>
    obtain ⟨other, others⟩ := List.forall_mem_cons.mp others
    by_cases decoded : ∃ d, i.decodes d
    · obtain ⟨d, decodes⟩ := decoded
      have distinct : a ≠ d := by
        rintro rfl
        exact other decodes
      rw [foldStream_cons_of_decodes decodes, foldStream_cons_of_decodes decodes, ih others,
        storeAttr_comm distinct]
    · rw [foldStream_cons_of_not_decodes decoded, foldStream_cons_of_not_decodes decoded,
        ih others]

/-- An occurrence before a decoded occurrence of its code leaves no trace (R114). -/
theorem foldStream_earlier {x y : StreamItem} {a : Attr} (code : x.code = y.code)
    (decodes : y.decodes a) (between after : List StreamItem) (n : Snapshot) :
    foldStream (y :: after) (foldStream (x :: between) n) =
      foldStream (y :: after) (foldStream between n) := by
  by_cases decoded : ∃ d, x.decodes d
  · obtain ⟨d, xDecodes⟩ := decoded
    have same : d = a := Option.some.inj (xDecodes.1.symm.trans (code ▸ decodes.1))
    rw [foldStream_cons_of_decodes xDecodes, same, foldStream_cons_of_decodes decodes,
      foldStream_cons_of_decodes decodes, storeAttr_foldStream_storeAttr]
  · rw [foldStream_cons_of_not_decodes decoded]

/-- Settles O48: an earlier occurrence is overwritten (`foldStream_earlier`), and the last one can be
moved to the end of the stream (`storeAttr_foldStream`), where decoding it again is no change. -/
theorem lastOccurrenceStands : Obligations.LastOccurrenceStands := by
  refine ⟨semantic_semantic, ?earlier, ?last⟩
  case earlier =>
    intro x y a before between after n code decodes
    rw [foldStream_append, foldStream_append, foldStream_append, foldStream_append,
      foldStream_earlier code decodes]
  case last =>
    intro y a before after n decodes others
    obtain ⟨code, width⟩ := decodes
    rw [foldStream_append, foldStream_cons_of_decodes ⟨code, width⟩,
      semantic_eq_storeAttr code width, storeAttr_foldStream others, storeAttr_same]

end Sys2Proof.Proofs
end

section
/-! PROOFS. Which agent steps, and that the Framer's step comes (43_response_framer.md R103,
60_exceptions.md R131, 70_reset_and_hazards.md R137). -/

namespace Sys2Proof.Proofs

open Sys2Proof Sys2Proof.Machine

/-- With BUSY = 0 and the host's program ended neither agent steps. -/
theorem advance_ended {s : State} (idle : s.busy = false) (ended : s.hostOps = []) :
    advance s = .fault .noEnabledStep := by
  simp only [advance, idle, ended]

/-- Settles O10: one equation of `advance` for each case. -/
theorem framerStepsOnlyWhileBusy : Obligations.FramerStepsOnlyWhileBusy :=
  ⟨fun _ done busy => advance_framer busy done, fun _ _ _ ops idle => advance_host_idle idle ops,
   fun _ _ _ _ ops busy turns => advance_host_busy busy ops turns,
   fun _ ended idle => advance_ended idle ended⟩

/-- No host access changes the count of accesses before the Framer's step; taking its operation
has. -/
theorem hostEffect_hostTurns {op : HostOp} {s t : State} (e : HostEffect op s t) :
    t.hostTurns = s.hostTurns := by
  cases e with
  | command w _ effect =>
    cases effect with
    | command i _ effect =>
      obtain ⟨_, _, turns, _⟩ := effect.host
      exact turns
    | illegal => rfl
  | ignored | noted | polling => rfl

theorem run_succ_of_step {s t : State} (k : Nat) (h : step s = .next t) :
    Host.Core.run core (k + 1) s = Host.Core.run core k t := by
  have next : core.step s = .next t := h
  simp only [Host.Core.run, next]

/-- Settles O11, by induction on the accesses the host has left: each one it makes is one less, and
with none left the step is the Framer's. -/
theorem framerStepIsFair : Obligations.FramerStepIsFair := by
  intro s busy
  induction turns : s.hostTurns generalizing s with
  | zero => exact ⟨0, s, le_rfl, rfl, .inr (.inl (advance_framer busy (.inr turns)))⟩
  | succ k ih =>
    cases ops : s.hostOps with
    | nil => exact ⟨0, s, Nat.zero_le _, rfl, .inr (.inl (advance_framer busy (.inl ops)))⟩
    | cons op rest =>
      have taken : step s = hostAccess op { s with hostOps := rest, hostTurns := k } :=
        advance_host_busy busy ops turns
      obtain ⟨t, made⟩ | refused :=
        hostAccess_outcome op { s with hostOps := rest, hostTurns := k }
      · have next : step s = .next t := taken.trans made
        cases running : t.busy with
        | false => exact ⟨1, t, by omega, run_succ_of_step 0 next, .inl running⟩
        | true =>
          obtain ⟨j, u, le, run, ends⟩ := ih t running (hostEffect_hostTurns (hostAccess_inv made))
          exact ⟨j + 1, u, by omega, (run_succ_of_step j next).trans run, ends⟩
      · exact ⟨0, s, Nat.zero_le _, rfl, .inr (.inr (taken.trans refused))⟩

end Sys2Proof.Proofs
end

section
/-! PROOFS. What the host can do during a decode (60_exceptions.md R126). -/

namespace Sys2Proof.Proofs

open Sys2Proof Sys2Proof.Machine

/-- A command under which a decode goes on is NOP or an error, CLR having ended it. -/
theorem command_keeps_while_busy {i : Instr} {s t : State} (e : CommandEffect i s t)
    (busy : s.busy = true) (goesOn : t.busy = true) :
    t.fbuf = s.fbuf ∧ t.len = s.len ∧ t.acc = s.acc := by
  obtain rfl | ⟨_, rfl⟩ | ⟨_, rfl⟩ := e.busy busy
  · exact ⟨rfl, rfl, rfl⟩
  · exact Bool.noConfusion goesOn
  · exact ⟨rfl, rfl, rfl⟩

/-- No host access under which a decode goes on writes FBUF, LEN or ACC. -/
theorem hostEffect_keeps_while_busy {op : HostOp} {s t : State} (e : HostEffect op s t)
    (busy : s.busy = true) (goesOn : t.busy = true) :
    t.fbuf = s.fbuf ∧ t.len = s.len ∧ t.acc = s.acc := by
  cases e with
  | command w _ effect =>
    cases effect with
    | command i _ effect => exact command_keeps_while_busy effect busy goesOn
    | illegal => exact ⟨rfl, rfl, rfl⟩
  | ignored | noted | polling => exact ⟨rfl, rfl, rfl⟩

/-- Settles O29: the busy check refuses every command but NOP and CLR, and of the two agents only
the Framer can write ACC while the decode goes on, and neither FBUF nor LEN. -/
theorem busyRefusal : Obligations.BusyRefusal := by
  refine ⟨fun _ s busy notNop notClr => refusedWhileBusy notNop notClr s busy, fun _ _ => rfl,
    fun s _ => ⟨softReset s, exec_clr s, softReset_busy s⟩, ?_⟩
  intro s t busy h goesOn
  cases step_inv h with
  | framer =>
    have kept := framerStep_keeps s
    exact ⟨kept.fbuf, kept.len, .inr rfl⟩
  | host op ops k _ _ effect =>
    obtain ⟨fbuf, len, acc⟩ := hostEffect_keeps_while_busy effect busy goesOn
    exact ⟨fbuf, len, .inl acc⟩

end Sys2Proof.Proofs
end

section
/-! PROOFS. What power-on reset leaves and what CLR leaves (70_reset_and_hazards.md R136, R138): the
soft reset of power-on's state is that state, so a register's value after CLR, proved once over
every state, is also its value after power-on. -/

namespace Sys2Proof.Proofs

open Sys2Proof Sys2Proof.Machine

/-- CLR's register writes give power-on's values; the state's other fields they keep (R138). -/
theorem softReset_eq_reset_with (s : State) :
    softReset s = { State.reset with
      fbuf := s.fbuf, hostOps := s.hostOps, hostReads := s.hostReads, hostTurns := s.hostTurns,
      draws := s.draws } := rfl

theorem softReset_reset : softReset State.reset = State.reset :=
  softReset_eq_reset_with State.reset

/-- After CLR every register but the hardwired BLKID reads 0 (R97). -/
theorem readReg_softReset {r : Reg} (notBlkid : r ≠ .blkid) (s : State) :
    readReg r (softReset s) = 0 := by
  have snapshot := readReg_of_snap_zero (softReset_snap s)
  cases r with
  | blkid => exact absurd rfl notBlkid
  | status => exact readReg_status_softReset s
  | lkup =>
    rw [readReg, softReset_lkup]
    decide
  | cmd | len | cursor | acc | rdata => rfl
  | valid | tel0 | tel1 | fw0 | fw1 | sid0 | sid1 | sid2 | sid3 | ident =>
    exact snapshot _ (by decide)

/-- Settles O12: the registers read as after CLR, and FBUF_INIT fills the buffer. -/
theorem resetValues : Obligations.ResetValues := by
  refine ⟨rfl, ?registers, rfl, softReset_busy State.reset, rfl, rfl, ?buffer⟩
  case registers =>
    intro r notBlkid
    rw [← softReset_reset]
    exact readReg_softReset notBlkid State.reset
  case buffer => exact fun a _ => Memory.read_reset a

/-- Settles O15: CLR is the soft reset, and that is power-on's state but for what it keeps. -/
theorem clrIsResetButForFbuf : Obligations.ClrIsResetButForFbuf := fun s =>
  (exec_clr s).trans (congrArg _ (softReset_eq_reset_with s))

end Sys2Proof.Proofs
end

section
/-! PROOFS. The wifi parameters (40_catalog_rom.md R82, R84): whichever code each of them has, the
model takes it from `openCodes`, the codes outside R81's table and not the escape code. -/

namespace Sys2Proof.Proofs

open Sys2Proof Sys2Proof.Machine

/-- An open code is not the reserved escape code (R84). -/
theorem ne_escapeCode_of_mem_openCodes {c : Byte} (isOpen : c ∈ openCodes) : c ≠ escapeCode := by
  obtain ⟨_, plain⟩ := openCodes_spec isOpen
  exact plain

/-- Settles O37: R81's table leaves both codes to the catalog's clause of width 0, and as open codes
both differ from the escape code. -/
theorem wifiWidthsAreZero : Obligations.WifiWidthsAreZero :=
  ⟨catalog_wifiName, catalog_wifiPassword,
   ne_escapeCode_of_mem_openCodes wifiName_mem, ne_escapeCode_of_mem_openCodes wifiPassword_mem⟩

end Sys2Proof.Proofs
end
